-- ==== Sys2Proof/Word.lean ====
section
/-! DEFINITION. The word types of the BFE: every data word on the host port is 32 bits (R200, R215 of spec/20_memory.md)
and a key byte is 8 bits. -/

namespace Sys2Proof

/-- A 32-bit data word; bit 0 is the least significant bit (R12, R13 of spec/00_scope.md). -/
abbrev Word := BitVec 32

/-- One key byte, or one byte of the export image (R215). -/
abbrev Byte := BitVec 8

end Sys2Proof
end

