-- ==== Sys2Proof/Config.lean ====
section
/-! DEFINITION. What one BFE fixes (the implementation parameters of R9, spec/00_scope.md) and the values the spec leaves
unspecified (93_implementation_defined.md I4, I5), which no proof can see. -/

namespace Sys2Proof

/-- The parameter `REHASH_FN` of R9 and R410: the default pass of R410, or any other total function on 32-bit words.
What is proved for `other` holds for every such function, since nothing is known of `Config.rehashOther`
(log entry 3). -/
inductive RehashFn where
  | default
  | other
deriving DecidableEq, Repr

/-- The implementation parameters of R9. They are constants of one BFE: State holds them, so that a statement about
every state is one about every BFE, and no step writes them (log entry 2). -/
structure Params where
  /-- `M_MAX`: the largest effective capacity in bits that CONFIG accepts -/
  mMax : Nat
  /-- `K_MAX`: the largest probe count that CONFIG accepts -/
  kMax : Nat
  /-- `HASH_INIT`: the FNV offset basis -/
  hashInit : Word
  /-- `HASH_PRIME`: the FNV prime -/
  hashPrime : Word
  /-- `REHASH_FN`: the step hash -/
  rehashFn : RehashFn
  /-- `BFE_BASE`: where the platform puts offset 0 (R201) -/
  bfeBase : Word
deriving DecidableEq, Repr

/-- The ranges R9 gives `M_MAX` and `K_MAX`. -/
structure Params.Legal (p : Params) : Prop where
  mMax_multiple : p.mMax % 32 = 0
  mMax_least : 32 ≤ p.mMax
  mMax_most : p.mMax ≤ 2 ^ 31
  kMax_least : 1 ≤ p.kMax
  kMax_most : p.kMax ≤ 1024

/-- A `REHASH_FN` other than the default: an unknown total function (R410; log entry 3). -/
opaque Config.rehashOther : Word → Word

/-- The unspecified value of bucket word `j` after the reset numbered `epoch` (R126; log entry 6). -/
opaque Config.freeBucket (epoch j : Nat) : Word

/-- The unspecified value of probe element `i` after the reset numbered `epoch`, before it is brought into
`[0, M_MAX)` (R108, R126; log entry 6). -/
opaque Config.freeLocation (epoch i : Nat) : Nat

end Sys2Proof
end

