-- ==== Sys2Proof/Syntax.lean ====
section
/-! DEFINITION. The operations of the BFE, one constructor per row of spec/opcode_table.json, and the transaction that
carries one (format T of R300, spec/30_encoding.md). -/

namespace Sys2Proof

/-- The operations. Each is exactly one host transaction (R308). -/
inductive Instr where
  /-- CONFIG, R422 -/
  | config
  /-- ADD, R460 -/
  | add
  /-- TEST, R470 -/
  | test
  /-- KEYRESET, R403 -/
  | keyreset
  /-- KB b, R402 -/
  | kb (b : Byte)
  /-- WR NUMBITS, n, R420 -/
  | wrNumbits (n : Word)
  /-- WR NUMHASHES, n, R421 -/
  | wrNumhashes (n : Word)
  /-- RD ID, R483 -/
  | rdId
  /-- RD MMAX, R484 -/
  | rdMmax
  /-- RD KMAX, R486 -/
  | rdKmax
  /-- RD NUMBITS, R487 -/
  | rdNumbits
  /-- RD NUMHASHES, R488 -/
  | rdNumhashes
  /-- RD M, R489 -/
  | rdM
  /-- RD K, R490 -/
  | rdK
  /-- RD STATUS, R491 -/
  | rdStatus
  /-- RD ACC, R492 -/
  | rdAcc
  /-- RD HASH_A, R493 -/
  | rdHashA
  /-- RD HASH_B, R494 -/
  | rdHashB
  /-- RD LOC[i], R482 -/
  | rdLoc (i : Nat)
  /-- RD BKT[j], R481 -/
  | rdBkt (j : Nat)
deriving DecidableEq, Repr

/-- A transaction's direction; a write carries a data word (R200). -/
inductive Dir where
  | read
  | write (data : Word)
deriving DecidableEq, Repr

/-- A host transaction (R200). `addr` is the offset from `BFE_BASE`, `size` is in bytes, `byteEnables` is the mask of
R208 (all ones where the bus has none), and `attrs` stands for the protection attributes that the bus may carry and the
BFE ignores (R630; log entry 8). -/
structure Txn where
  dir : Dir
  addr : Word
  size : Nat
  byteEnables : BitVec 4
  attrs : Nat
deriving DecidableEq, Repr

end Sys2Proof
end

