-- ==== Sys2Proof/WellFormed.lean ====
section
/-! DEFINITION. Which instructions have an encoding: the window indices lie in their windows (R202, R204, R205 of
spec/20_memory.md). The other operands have the width of their field. -/

namespace Sys2Proof

/-- The number of words of the probe window, `0 <= i < 1024` (R204). -/
abbrev locWindowWords : Nat := 1024

/-- The number of words of the bucket window, `0 <= j < 2^26` (R205). -/
abbrev bktWindowWords : Nat := 2 ^ 26

/-- An instruction is well-formed when its window index lies in its window. -/
def Instr.wellFormed : Instr → Bool
  | .rdLoc i => decide (i < locWindowWords)
  | .rdBkt j => decide (j < bktWindowWords)
  | .config => true
  | .add => true
  | .test => true
  | .keyreset => true
  | .kb _ => true
  | .wrNumbits _ => true
  | .wrNumhashes _ => true
  | .rdId => true
  | .rdMmax => true
  | .rdKmax => true
  | .rdNumbits => true
  | .rdNumhashes => true
  | .rdM => true
  | .rdK => true
  | .rdStatus => true
  | .rdAcc => true
  | .rdHashA => true
  | .rdHashB => true

end Sys2Proof
end

