-- ==== Sys2Proof/Decode.lean ====
section
/-! DEFINITION. From a transaction to an operation (R207 of spec/20_memory.md, R301 to R305 of spec/30_encoding.md), total
and rejecting by name; the encoder; and the rows of spec/opcode_table.json. -/

namespace Sys2Proof

/-! ## The register map (R110 of spec/10_state.md) -/

/-- The thirteen registers of R110. -/
inductive Reg where
  | id | mmax | kmax | numbits | numhashes | m | k | status | cmd | keybyte | acc | hashA | hashB
deriving DecidableEq, Repr

/-- A register's byte offset (R110). -/
def Reg.offset : Reg → Nat
  | .id => 0x000
  | .mmax => 0x004
  | .kmax => 0x008
  | .numbits => 0x00C
  | .numhashes => 0x010
  | .m => 0x014
  | .k => 0x018
  | .status => 0x01C
  | .cmd => 0x020
  | .keybyte => 0x024
  | .acc => 0x028
  | .hashA => 0x02C
  | .hashB => 0x030

/-- The registers in the order of their offsets (R110, R203). -/
def Reg.all : List Reg :=
  [.id, .mmax, .kmax, .numbits, .numhashes, .m, .k, .status, .cmd, .keybyte, .acc, .hashA, .hashB]

/-- The register at a byte offset, if there is one (R203). -/
def Reg.ofOffset (a : Nat) : Option Reg := Reg.all.find? fun r => decide (r.offset = a)

/-- The first offset of the probe window (R202). -/
abbrev locWindow : Nat := 0x1000

/-- The first offset of the bucket window (R202). -/
abbrev bktWindow : Nat := 0x10000000

/-! ## Decoding -/

/-- Why a transaction is a bus error whatever the state is: the cases (a) to (d) of R610. -/
inductive BusCause where
  | wrongSize
  | partialMask
  | misaligned
  | writeReadOnly
  | readWriteOnly
  | writeWindow
  | reserved
deriving DecidableEq, Repr

/-- Why a command word is illegal (R304): its reserved bits, or its opcode. -/
inductive IllegalCause where
  | reservedBits
  | opcode
deriving DecidableEq, Repr

/-- What a transaction asks for. -/
inductive Decoded where
  | instr (i : Instr)
  | busError (c : BusCause)
  | illegalCommand (c : IllegalCause)
deriving DecidableEq, Repr

/-- The field OPC of a command word (R301). -/
def cmdOpc (cw : Word) : Byte := cw.extractLsb' 0 8

/-- The field RSVD of a command word (R301). -/
def cmdRsvd (cw : Word) : BitVec 24 := cw.extractLsb' 8 24

/-- The field DATA of a key-byte word (R302); the other bits are ignored. -/
def keyData (d : Word) : Byte := d.extractLsb' 0 8

/-- The opcode map (R303). -/
def commandOf (opc : Byte) : Option Instr :=
  if opc = 0x01#8 then some .config
  else if opc = 0x02#8 then some .add
  else if opc = 0x03#8 then some .test
  else if opc = 0x04#8 then some .keyreset
  else none

/-- `execute_command`'s choice (R301): RSVD is looked at before OPC (R304, R604). -/
def decodeCommand (cw : Word) : Decoded :=
  if cmdRsvd cw ≠ 0 then .illegalCommand .reservedBits
  else match commandOf (cmdOpc cw) with
    | some i => .instr i
    | none => .illegalCommand .opcode

/-- An access to a register, by direction (R207, R110). -/
def decodeReg : Reg → Dir → Decoded
  | .id, .read => .instr .rdId
  | .id, .write _ => .busError .writeReadOnly
  | .mmax, .read => .instr .rdMmax
  | .mmax, .write _ => .busError .writeReadOnly
  | .kmax, .read => .instr .rdKmax
  | .kmax, .write _ => .busError .writeReadOnly
  | .numbits, .read => .instr .rdNumbits
  | .numbits, .write d => .instr (.wrNumbits d)
  | .numhashes, .read => .instr .rdNumhashes
  | .numhashes, .write d => .instr (.wrNumhashes d)
  | .m, .read => .instr .rdM
  | .m, .write _ => .busError .writeReadOnly
  | .k, .read => .instr .rdK
  | .k, .write _ => .busError .writeReadOnly
  | .status, .read => .instr .rdStatus
  | .status, .write _ => .busError .writeReadOnly
  | .cmd, .read => .busError .readWriteOnly
  | .cmd, .write d => decodeCommand d
  | .keybyte, .read => .busError .readWriteOnly
  | .keybyte, .write d => .instr (.kb (keyData d))
  | .acc, .read => .instr .rdAcc
  | .acc, .write _ => .busError .writeReadOnly
  | .hashA, .read => .instr .rdHashA
  | .hashA, .write _ => .busError .writeReadOnly
  | .hashB, .read => .instr .rdHashB
  | .hashB, .write _ => .busError .writeReadOnly

/-- An access outside the registers: the two windows, indexed by word (R305), and the reserved offsets (R206). Whether a
window element is mapped depends on the state; `execRdLoc` and `execRdBkt` decide it. -/
def decodeWindow (a : Nat) (dir : Dir) : Decoded :=
  if locWindow ≤ a ∧ a < locWindow + 4 * locWindowWords then
    match dir with
    | .read => .instr (.rdLoc ((a - locWindow) / 4))
    | .write _ => .busError .writeWindow
  else if bktWindow ≤ a ∧ a < bktWindow + 4 * bktWindowWords then
    match dir with
    | .read => .instr (.rdBkt ((a - bktWindow) / 4))
    | .write _ => .busError .writeWindow
  else .busError .reserved

/-- The complete decode of a transaction (R207, R208). The attributes are ignored (R217, R630). -/
def decode (t : Txn) : Decoded :=
  if t.size ≠ 4 then .busError .wrongSize
  else if t.byteEnables ≠ 0b1111#4 then .busError .partialMask
  else if t.addr.toNat % 4 ≠ 0 then .busError .misaligned
  else match Reg.ofOffset t.addr.toNat with
    | some r => decodeReg r t.dir
    | none => decodeWindow t.addr.toNat t.dir

/-! ## The host's accesses (R308) and the encoder -/

/-- `MemRead(off, 4)`: a whole-word read (R17, R308). -/
def Txn.wordRead (off : Word) : Txn := ⟨.read, off, 4, 0b1111#4, 0⟩

/-- `MemWrite(off, 4, v)`: a whole-word write (R17, R308). -/
def Txn.wordWrite (off v : Word) : Txn := ⟨.write v, off, 4, 0b1111#4, 0⟩

/-- `CMD w`: a write of any word to CMD (R308). -/
def Txn.cmd (w : Word) : Txn := .wordWrite 0x020#32 w

/-- The transaction that a host access at the host's own address is: the host's address of offset `o` is
`BFE_BASE + o` (R201), here modulo 2^32 (DESIGN CHOICE, log entry 14). -/
def Txn.atHostAddress (p : Params) (dir : Dir) (hostAddr : Word) : Txn :=
  ⟨dir, hostAddr - p.bfeBase, 4, 0b1111#4, 0⟩

/-- The transaction of a well-formed instruction (the table of R308). -/
def encode : Instr → Txn
  | .config => .cmd 0x00000001#32
  | .add => .cmd 0x00000002#32
  | .test => .cmd 0x00000003#32
  | .keyreset => .cmd 0x00000004#32
  | .kb b => .wordWrite 0x024#32 (b.setWidth 32)
  | .wrNumbits n => .wordWrite 0x00C#32 n
  | .wrNumhashes n => .wordWrite 0x010#32 n
  | .rdId => .wordRead 0x000#32
  | .rdMmax => .wordRead 0x004#32
  | .rdKmax => .wordRead 0x008#32
  | .rdNumbits => .wordRead 0x00C#32
  | .rdNumhashes => .wordRead 0x010#32
  | .rdM => .wordRead 0x014#32
  | .rdK => .wordRead 0x018#32
  | .rdStatus => .wordRead 0x01C#32
  | .rdAcc => .wordRead 0x028#32
  | .rdHashA => .wordRead 0x02C#32
  | .rdHashB => .wordRead 0x030#32
  | .rdLoc i => .wordRead (BitVec.ofNat 32 (locWindow + 4 * i))
  | .rdBkt j => .wordRead (BitVec.ofNat 32 (bktWindow + 4 * j))

/-! ## The rows of spec/opcode_table.json -/

/-- What the bits of a row are: the data word of a write to CMD, or the offset of an aligned transaction
("match_on" in the table). -/
inductive MatchOn where
  | cmdData
  | offset
deriving DecidableEq, Repr

/-- A row of the opcode table. -/
structure TableRow where
  mnemonic : String
  matchOn : MatchOn
  isWrite : Bool
  value : Word
  mask : Word
deriving DecidableEq, Repr

/-- The row of an instruction. -/
def Instr.row : Instr → TableRow
  | .config => ⟨"CONFIG", .cmdData, true, 0x00000001#32, 0xFFFFFFFF#32⟩
  | .add => ⟨"ADD", .cmdData, true, 0x00000002#32, 0xFFFFFFFF#32⟩
  | .test => ⟨"TEST", .cmdData, true, 0x00000003#32, 0xFFFFFFFF#32⟩
  | .keyreset => ⟨"KEYRESET", .cmdData, true, 0x00000004#32, 0xFFFFFFFF#32⟩
  | .kb _ => ⟨"KB", .offset, true, 0x00000024#32, 0xFFFFFFFF#32⟩
  | .wrNumbits _ => ⟨"WR_NUMBITS", .offset, true, 0x0000000C#32, 0xFFFFFFFF#32⟩
  | .wrNumhashes _ => ⟨"WR_NUMHASHES", .offset, true, 0x00000010#32, 0xFFFFFFFF#32⟩
  | .rdId => ⟨"RD_ID", .offset, false, 0x00000000#32, 0xFFFFFFFF#32⟩
  | .rdMmax => ⟨"RD_MMAX", .offset, false, 0x00000004#32, 0xFFFFFFFF#32⟩
  | .rdKmax => ⟨"RD_KMAX", .offset, false, 0x00000008#32, 0xFFFFFFFF#32⟩
  | .rdNumbits => ⟨"RD_NUMBITS", .offset, false, 0x0000000C#32, 0xFFFFFFFF#32⟩
  | .rdNumhashes => ⟨"RD_NUMHASHES", .offset, false, 0x00000010#32, 0xFFFFFFFF#32⟩
  | .rdM => ⟨"RD_M", .offset, false, 0x00000014#32, 0xFFFFFFFF#32⟩
  | .rdK => ⟨"RD_K", .offset, false, 0x00000018#32, 0xFFFFFFFF#32⟩
  | .rdStatus => ⟨"RD_STATUS", .offset, false, 0x0000001C#32, 0xFFFFFFFF#32⟩
  | .rdAcc => ⟨"RD_ACC", .offset, false, 0x00000028#32, 0xFFFFFFFF#32⟩
  | .rdHashA => ⟨"RD_HASH_A", .offset, false, 0x0000002C#32, 0xFFFFFFFF#32⟩
  | .rdHashB => ⟨"RD_HASH_B", .offset, false, 0x00000030#32, 0xFFFFFFFF#32⟩
  | .rdLoc _ => ⟨"RD_LOC", .offset, false, 0x00001000#32, 0xFFFFF000#32⟩
  | .rdBkt _ => ⟨"RD_BKT", .offset, false, 0x10000000#32, 0xF0000000#32⟩

/-- The table, in its order. -/
def opcodeTable : List TableRow :=
  [Instr.config.row, Instr.add.row, Instr.test.row, Instr.keyreset.row, (Instr.kb 0).row, (Instr.wrNumbits 0).row,
    (Instr.wrNumhashes 0).row, Instr.rdId.row, Instr.rdMmax.row, Instr.rdKmax.row, Instr.rdNumbits.row]
  ++ [Instr.rdNumhashes.row, Instr.rdM.row, Instr.rdK.row, Instr.rdStatus.row, Instr.rdAcc.row, Instr.rdHashA.row,
    Instr.rdHashB.row, (Instr.rdLoc 0).row, (Instr.rdBkt 0).row]

/-- The bits of a word fit a row. -/
def TableRow.fits (r : TableRow) (w : Word) : Bool := decide (w &&& r.mask = r.value)

/-- A whole-word transaction is one of a row's: the direction and the bits the row looks at fit. -/
def TableRow.describes (r : TableRow) (t : Txn) : Bool :=
  match r.matchOn, t.dir with
  | .cmdData, .write d => decide (t.addr = 0x020#32) && r.fits d
  | .cmdData, .read => false
  | .offset, .write _ => r.isWrite && r.fits t.addr
  | .offset, .read => !r.isWrite && r.fits t.addr

/-- The transaction a word numbered as the table numbers it stands for: that of the FIRST row of the table the word fits,
with a data word of zeros where the row's bits are an offset. The table's words carry no direction, so three words fit
two rows each (4, 0xC and 0x10), and the row that comes later in the table (RD_MMAX, RD_NUMBITS, RD_NUMHASHES) is not
reached by its word alone (log entry 9); as a transaction it is. A word that fits no row is read as an offset. -/
def tableTxn (w : Word) : Txn :=
  match opcodeTable.find? (fun r => r.fits w) with
  | none => .wordRead w
  | some r =>
    match r.matchOn with
    | .cmdData => .cmd w
    | .offset => if r.isWrite then .wordWrite w 0 else .wordRead w

/-- The low `nbits` bits of a table word as a 32-bit word (the bits above are 0). -/
def tableWord (nbits w : Nat) : Word := BitVec.ofNat 32 (w % 2 ^ nbits)

/-- The instruction the decoder reads from a word numbered as spec/opcode_table.json numbers it (log entry 9). -/
def decodeTableWord (nbits w : Nat) : Option Instr :=
  match decode (tableTxn (tableWord nbits w)) with
  | .instr i => some i
  | .busError _ => none
  | .illegalCommand _ => none

end Sys2Proof
end

