-- ==== Sys2Proof/Machine/Parameters.lean ====
section
/-! DEFINITION. The parameter values of the BFE that State.reset is the reset state of: the spec's defaults (R9, R401 of
spec/40_hashsource.md), and the values its test vectors assume where it leaves a parameter open (R11 and the head of
spec/95_test_vectors.md). -/

namespace Sys2Proof.Machine

/-- DESIGN CHOICE (log entry 1): `M_MAX` is OPEN in R9; 131072 is the value spec/95_test_vectors.md assumes. -/
def defaultMMax : Nat := 131072

/-- DESIGN CHOICE (log entry 1): `K_MAX` is OPEN in R9; 8 is the value spec/95_test_vectors.md assumes. -/
def defaultKMax : Nat := 8

/-- `HASH_INIT`'s default (R401). -/
def defaultHashInit : Word := 0x811C9DC5#32

/-- `HASH_PRIME`'s default (R401). -/
def defaultHashPrime : Word := 0x01000193#32

/-- DESIGN CHOICE (log entry 14): `BFE_BASE` is the platform's (R201); no step depends on it. -/
def defaultBfeBase : Word := 0

/-- The parameters of State.reset. -/
def defaultParams : Params where
  mMax := defaultMMax
  kMax := defaultKMax
  hashInit := defaultHashInit
  hashPrime := defaultHashPrime
  rehashFn := .default
  bfeBase := defaultBfeBase

end Sys2Proof.Machine
end

