-- ==== Sys2Proof/Machine/State.lean ====
section
/-! DEFINITION. The state of the BFE (spec/10_state.md) as plain data, the outcomes' reasons, and the state after reset. -/

namespace Sys2Proof.Machine

/-- No step of the BFE stops the machine: a bus error is a response and a command error is a status code, and the next
transaction is performed by the ordinary rules (R610, R613 of spec/60_exceptions.md; log entry 12). So nothing raises a
fault. -/
inductive Fault where
deriving DecidableEq, Repr

/-- Why the model gives a transaction no meaning. -/
inductive Refusal where
  /-- Raised by an arm of `exec` whose instruction has no meaning yet; none has it now. Safe: the machine stops where
  the hardware goes on. -/
  | notModelled (mnemonic : String)
deriving DecidableEq, Repr

/-- The codes of STATUS.ERR (R601); 4 to 15 are never produced. -/
inductive ErrCode where
  | ok
  | illegalCmd
  | invalidConfig
  | notConfigured
deriving DecidableEq, Repr

/-- The probe-buffer element width `W` in bytes, one of 0, 1, 2, 4 (R106). -/
inductive LocWidth where
  | zero
  | one
  | two
  | four
deriving DecidableEq, Repr

/-- The response of a transaction (R200): OK for a write, OK with a word for a read, or ERROR. -/
inductive Response where
  | ok
  | okData (w : Word)
  | error
deriving DecidableEq, Repr

/-- What reaches the BFE from outside: a transaction, or the reset input asserted, between transactions or while one is
in progress, which is then abandoned (R7, R700, R702). -/
inductive Event where
  | txn (t : Txn)
  | reset (abandoned : Option Txn)
deriving DecidableEq, Repr

/-- A memory of 32-bit words: the listed words, and `zeroed`, the number of words from 0 up that CONFIG has zeroed since
reset. A word that is not listed reads as zero below `zeroed` and as an unspecified value from there up
(`Memory.unlisted`). `Memory.wf` is its canonical form (log entry 11). -/
structure Memory where
  cells : List (Nat × Word)
  zeroed : Nat
deriving DecidableEq, Repr

/-- The state of the BFE (R103 to R126), its parameters (R9), and the model's own fields `port`, `resp` and `epoch`. -/
structure State where
  /-- CONFIGURED, R103 -/
  configured : Bool
  /-- STATUS.RESULT, R117 -/
  result : Bool
  /-- STATUS.LOCVALID, R117 -/
  locValid : Bool
  /-- `W`, STATUS.LOCW, R106 -/
  w : LocWidth
  /-- STATUS.ERR, R117 and R601 -/
  err : ErrCode
  /-- `M`, the effective capacity in bits, R104 -/
  m : Word
  /-- `K`, the probe count, R105 -/
  k : Word
  /-- NUMBITS, R113 -/
  numbits : Word
  /-- NUMHASHES, R114 -/
  numhashes : Word
  /-- ACC, R109 -/
  acc : Word
  /-- HASH_A, R121 -/
  hashA : Word
  /-- HASH_B, R122 -/
  hashB : Word
  /-- the bucket array BKT, R107 -/
  bkt : Memory
  /-- the probe buffer LOC, R108 -/
  loc : Memory
  /-- the parameters of this BFE, R9; no step writes them (log entry 2) -/
  par : Params
  /-- the MODEL's own: how many resets there have been, the index of the unspecified values (log entry 6) -/
  epoch : Nat
  /-- the MODEL's own: the events that have reached the port and are not yet performed, oldest first (R220, R221; log
  entry 4) -/
  port : List Event
  /-- the MODEL's own: the response of the last transaction performed, none before the first since reset (R200; log
  entry 5) -/
  resp : Option Response
deriving DecidableEq, Repr

/-- The state the reset input leaves, for a BFE with parameters `p`: every value of R126. The bucket and probe storage
is unspecified: nothing listed and nothing zeroed. -/
def State.resetOf (p : Params) (epoch : Nat) : State where
  configured := false
  result := false
  locValid := false
  w := .zero
  err := .ok
  m := 0
  k := 0
  numbits := 0
  numhashes := 0
  acc := p.hashInit
  hashA := 0
  hashB := 0
  bkt := ⟨[], 0⟩
  loc := ⟨[], 0⟩
  par := p
  epoch := epoch
  port := []
  resp := none

/-- The machine right after reset (R126, R700), with the parameters of `defaultParams` (log entry 1). -/
def State.reset : State := State.resetOf defaultParams 0

end Sys2Proof.Machine
end

