-- ==== Sys2Proof/Machine/Ops.lean ====
section
/-! DEFINITION. The named operations every meaning is built from: the word memories, the response of a transaction, the
two kinds of error (R602 and R610 of spec/60_exceptions.md), taking the next event, and reset. -/

namespace Sys2Proof.Machine

/-! ## Word memories -/

/-- What a word that is not listed reads as: zero where CONFIG has zeroed it, else its unspecified value `free j`. -/
def Memory.unlisted (free : Nat → Word) (mem : Memory) (j : Nat) : Word :=
  if j < mem.zeroed then 0 else free j

/-- The listed word at `j`, if any. -/
def cellsFind (j : Nat) : List (Nat × Word) → Option Word
  | [] => none
  | c :: rest => if c.1 = j then some c.2 else cellsFind j rest

/-- List a word, in its place. -/
def cellsInsert (j : Nat) (v : Word) : List (Nat × Word) → List (Nat × Word)
  | [] => [(j, v)]
  | c :: rest =>
    if j < c.1 then (j, v) :: c :: rest
    else if j = c.1 then (j, v) :: rest
    else c :: cellsInsert j v rest

/-- Unlist a word. -/
def cellsErase (j : Nat) (cells : List (Nat × Word)) : List (Nat × Word) :=
  cells.filter fun c => decide (c.1 ≠ j)

/-- Read word `j`. -/
def Memory.read (free : Nat → Word) (mem : Memory) (j : Nat) : Word :=
  (cellsFind j mem.cells).getD (mem.unlisted free j)

/-- Write word `j`; writing what an unlisted word reads as unlists it. -/
def Memory.write (free : Nat → Word) (mem : Memory) (j : Nat) (v : Word) : Memory :=
  if v = mem.unlisted free j then { mem with cells := cellsErase j mem.cells }
  else { mem with cells := cellsInsert j v mem.cells }

/-- Write the words of a list from index `j` up. -/
def Memory.writeFrom (free : Nat → Word) (mem : Memory) (j : Nat) : List Word → Memory
  | [] => mem
  | v :: vs => (mem.write free j v).writeFrom free (j + 1) vs

/-- Zero the words `0 .. n-1` and no other. -/
def Memory.zeroBelow (mem : Memory) (n : Nat) : Memory :=
  { cells := mem.cells.filter fun c => decide (n ≤ c.1), zeroed := max mem.zeroed n }

/-- The canonical form: indices strictly rising, and no entry equal to what an unlisted word reads as. -/
abbrev Memory.wf (free : Nat → Word) (mem : Memory) : Prop :=
  mem.cells.Pairwise (fun c d => c.1 < d.1) ∧ ∀ c ∈ mem.cells, c.2 ≠ mem.unlisted free c.1

/-- The unspecified values of the bucket words since the last reset (R126; log entry 6). -/
def State.freeBkt (s : State) (j : Nat) : Word := Config.freeBucket s.epoch j

/-- The unspecified values of the probe elements since the last reset, integers in `[0, M_MAX)` (R108, R126; log
entry 6). -/
def State.freeLoc (s : State) (i : Nat) : Word := BitVec.ofNat 32 (Config.freeLocation s.epoch i % s.par.mMax)

/-- `BKT[j]` (R107). -/
def State.bktWord (s : State) (j : Nat) : Word := s.bkt.read s.freeBkt j

/-- `LOC[i]` (R108). -/
def State.locWord (s : State) (i : Nat) : Word := s.loc.read s.freeLoc i

/-- Bit `l` of the filter: bit `l mod 32` of bucket word `floor(l / 32)` (R107). -/
def State.filterBit (s : State) (l : Nat) : Bool := (s.bktWord (l / 32)).getLsbD (l % 32)

/-- Set bit `l`: `BKT[l >> 5] <- BKT[l >> 5] | (1 << (l & 31))` (R460 of spec/43_add.md). -/
def State.setBit (s : State) (l : Nat) : State :=
  { s with bkt := s.bkt.write s.freeBkt (l / 32) (s.bktWord (l / 32) ||| 1#32 <<< (l % 32)) }

/-! ## The response and the two kinds of error -/

/-- Give a transaction its response (R200). -/
def State.respond (s : State) (r : Response) : State := { s with resp := some r }

/-- `fail(code)`: STATUS.ERR takes the code and nothing else changes (R602). -/
def State.fail (s : State) (code : ErrCode) : State := { s with err := code }

/-- A command ends in success: STATUS.ERR = 0 (R600), and the CMD write returns OK. -/
def commandOk (s : State) : Host.Outcome State Fault Refusal :=
  .next ({ s with err := .ok }.respond .ok)

/-- A command ends in a command error; the CMD write still returns OK (R600, R602). -/
def commandError (code : ErrCode) (s : State) : Host.Outcome State Fault Refusal :=
  .next ((s.fail code).respond .ok)

/-- A write to a register other than CMD is done. -/
def writeOk (s : State) : Host.Outcome State Fault Refusal := .next (s.respond .ok)

/-- A read returns a word and changes nothing (R209). -/
def readOk (v : Word) (s : State) : Host.Outcome State Fault Refusal := .next (s.respond (.okData v))

/-- `raise BusError()`: the ERROR response and no state change; the machine goes on (R610, R613). -/
def busError (s : State) : Host.Outcome State Fault Refusal := .next (s.respond .error)

/-- A command word that is no command: ILLEGAL_CMD (R304). -/
def illegalCommand (s : State) : Host.Outcome State Fault Refusal := commandError .illegalCmd s

/-! ## Events -/

/-- Take the oldest event that has reached the port (R220, R221). -/
def State.nextEvent (s : State) : Option (Event × State) :=
  match s.port with
  | [] => none
  | e :: rest => some (e, { s with port := rest })

/-- The reset input is asserted (R700). Whatever the abandoned transaction had done is gone with it (R702); the storage
takes new unspecified values. What has not reached the port yet is not affected (log entry 7). -/
def takeReset (s : State) : State :=
  { State.resetOf s.par (s.epoch + 1) with port := s.port }

end Sys2Proof.Machine
end

