-- ==== Sys2Proof/Machine/Operands.lean ====
section
/-! DEFINITION. How operands are read (R13 to R15 of spec/00_scope.md, R305 of spec/30_encoding.md): the signed reading of
a word, the two remainders, the bytes of a word, and the operands of CONFIG. -/

namespace Sys2Proof.Machine

/-- `sint32(v)`: the two's-complement reading of a word (R13). -/
def sint32 (v : Word) : Int := if v.toNat < 2 ^ 31 then (v.toNat : Int) else (v.toNat : Int) - 2 ^ 32

/-- `trem(x, m)`: the truncated remainder, with the sign of `x` (R14). -/
def trem (x m : Int) : Int := x.sign * ((x.natAbs % m.natAbs : Nat) : Int)

/-- `emod(x, m)`: the Euclidean remainder, in `[0, m)` for `m > 0` (R14). -/
def emod (x m : Int) : Int := x % m

/-- The four bytes of a word, least significant first (R410 of spec/40_hashsource.md). -/
def bytesOf (a : Word) : List Byte :=
  [a.extractLsb' 0 8, a.extractLsb' 8 8, a.extractLsb' 16 8, a.extractLsb' 24 8]

/-- `nb`: the requested capacity, unsigned (R113, R422). -/
def State.nb (s : State) : Nat := s.numbits.toNat

/-- `nh`: the requested probe count, unsigned (R114, R422). -/
def State.nh (s : State) : Nat := s.numhashes.toNat

/-- `32 * ceil(nb / 32)`, without wrap (R423 of spec/41_construction.md). -/
def roundUp32 (nb : Nat) : Nat := 32 * ((nb + 31) / 32)

end Sys2Proof.Machine
end

