-- ==== Sys2Proof/Machine/Flags.lean ====
section
/-! DEFINITION. The STATUS word (R117 of spec/10_state.md, R491 of spec/45_export.md). -/

namespace Sys2Proof.Machine

/-- The number of a code of STATUS.ERR (R601). -/
def ErrCode.code : ErrCode → Nat
  | .ok => 0
  | .illegalCmd => 1
  | .invalidConfig => 2
  | .notConfigured => 3

/-- The width in bytes, as STATUS.LOCW shows it (R106). -/
def LocWidth.bytes : LocWidth → Nat
  | .zero => 0
  | .one => 1
  | .two => 2
  | .four => 4

/-- A flag as a word. -/
def bit (b : Bool) : Word := if b then 1 else 0

/-- `CONFIGURED | RESULT << 1 | LOCVALID << 2 | LOCW << 4 | ERR << 8` (R491). -/
def State.statusWord (s : State) : Word :=
  bit s.configured ||| bit s.result <<< 1 ||| bit s.locValid <<< 2 ||| BitVec.ofNat 32 s.w.bytes <<< 4
    ||| BitVec.ofNat 32 s.err.code <<< 8

end Sys2Proof.Machine
end

