-- ==== Sys2Proof/Machine/Hash.lean ====
section
/-! DEFINITION. Key hashing (spec/40_hashsource.md): the hash step, the hash of a byte string, the step hash, KB and
KEYRESET. -/

namespace Sys2Proof.Machine

/-- `step(acc, byte) = u32(acc * HASH_PRIME + zext_32(byte))` (R400). -/
def hashStep (p : Params) (acc : Word) (byte : Byte) : Word :=
  BitVec.ofNat 32 (acc.toNat * p.hashPrime.toNat + byte.toNat)

/-- The steps of a byte string from a start value, first byte first (R400, R214). -/
def hashFrom (p : Params) (acc : Word) (v : List Byte) : Word := v.foldl (hashStep p) acc

/-- `hash(v)` (R400). -/
def hashOf (p : Params) (v : List Byte) : Word := hashFrom p p.hashInit v

/-- `REHASH_FN(a)`: by default the pass of R400 over the bytes of `a`, least significant first (R410). -/
def rehash (p : Params) (a : Word) : Word :=
  match p.rehashFn with
  | .default => hashOf p (bytesOf a)
  | .other => Config.rehashOther a

/-- KB b: absorb one key byte; STATUS is unchanged (R402). -/
def execKb (b : Byte) (s : State) : Host.Outcome State Fault Refusal :=
  writeOk { s with acc := hashStep s.par s.acc b }

/-- KEYRESET: discard the absorbed key (R403). -/
def execKeyreset (s : State) : Host.Outcome State Fault Refusal :=
  commandOk { s with acc := s.par.hashInit }

end Sys2Proof.Machine
end

