-- ==== Sys2Proof/Machine/Construction.lean ====
section
/-! DEFINITION. Construction (spec/41_construction.md): WR NUMBITS, WR NUMHASHES and CONFIG. -/

namespace Sys2Proof.Machine

/-- `width(m)` (R427). -/
def locWidth (m : Nat) : LocWidth :=
  if m ≤ 256 then .one else if m ≤ 65536 then .two else .four

/-- WR NUMBITS, n (R420). -/
def execWrNumbits (n : Word) (s : State) : Host.Outcome State Fault Refusal :=
  writeOk { s with numbits := n }

/-- WR NUMHASHES, n (R421). -/
def execWrNumhashes (n : Word) (s : State) : Host.Outcome State Fault Refusal :=
  writeOk { s with numhashes := n }

/-- The conditions under which CONFIG fails (R426). -/
abbrev State.configInvalid (s : State) : Prop :=
  s.nb = 0 ∨ s.nh = 0 ∨ s.par.mMax < roundUp32 s.nb ∨ s.par.kMax < s.nh

/-- The new, empty filter (R422, R424, R425). -/
def State.construct (s : State) : State :=
  { s with
    bkt := s.bkt.zeroBelow (roundUp32 s.nb / 32)
    loc := s.loc.zeroBelow s.nh
    m := BitVec.ofNat 32 (roundUp32 s.nb)
    k := BitVec.ofNat 32 s.nh
    w := locWidth (roundUp32 s.nb)
    configured := true
    locValid := false
    result := false
    acc := s.par.hashInit
    hashA := 0
    hashB := 0 }

/-- CONFIG (R422); a failing CONFIG keeps the old filter (R429). -/
def execConfig (s : State) : Host.Outcome State Fault Refusal :=
  if s.configInvalid then commandError .invalidConfig s else commandOk s.construct

end Sys2Proof.Machine
end

