-- ==== Sys2Proof/Machine/Locations.lean ====
section
/-! DEFINITION. The probe-position generator (spec/42_locations.md): `probe()`, which ADD and TEST perform. -/

namespace Sys2Proof.Machine

/-- The value stored for a running `x`: corrected into `[0, m)` at the store only (R443, R444). -/
def storedPosition (m x : Int) : Int := if x < 0 then x + m else x

/-- The loop of R443 from a running value `x`, `n` iterations: the stored values in order. The running value is not
corrected and the sum is exact (R444, R445). -/
def positionsFrom (b m : Int) : Nat → Int → List Int
  | 0, _ => []
  | n + 1, x => storedPosition m x :: positionsFrom b m n (trem (x + b) m)

/-- The `k` probe positions of `a` and `b` (R443). -/
def probePositions (a b m : Int) (k : Nat) : List Int := positionsFrom b m k (trem a m)

/-- The probe positions of the absorbed key: `a = sint32(acc)`, `b = sint32(REHASH_FN(acc))` (R440 to R442). -/
def State.positions (s : State) : List Int :=
  probePositions (sint32 s.acc) (sint32 (rehash s.par s.acc)) s.m.toNat s.k.toNat

/-- `probe()` (R443, R447): the positions go to `LOC[0 .. k-1]`, the hashes to HASH_A and HASH_B, and the key is
consumed. -/
def State.probe (s : State) : State :=
  { s with
    loc := s.loc.writeFrom s.freeLoc 0 (s.positions.map (BitVec.ofInt 32))
    hashA := s.acc
    hashB := rehash s.par s.acc
    locValid := true
    acc := s.par.hashInit }

/-- `LOC[0], ..., LOC[K-1]` as positions, in the order the loops of ADD and TEST take them. -/
def State.locations (s : State) : List Nat :=
  (List.range s.k.toNat).map fun i => (s.locWord i).toNat

end Sys2Proof.Machine
end

