-- ==== Sys2Proof/Machine/Add.lean ====
section
/-! DEFINITION. The set unit (spec/43_add.md): ADD. -/

namespace Sys2Proof.Machine

/-- The loop of ADD: set the bit of each position, in order (R460). -/
def State.setBits (s : State) (ls : List Nat) : State := ls.foldl State.setBit s

/-- ADD (R460): STATUS.RESULT is not written. -/
def execAdd (s : State) : Host.Outcome State Fault Refusal :=
  if s.configured then commandOk (s.probe.setBits s.probe.locations) else commandError .notConfigured s

end Sys2Proof.Machine
end

