-- ==== Sys2Proof/Machine/TestUnit.lean ====
section
/-! DEFINITION. The test unit (spec/44_test.md): TEST. -/

namespace Sys2Proof.Machine

/-- The loop of TEST: stop at the first position whose bit is 0 (R470). -/
def State.allSet (s : State) : List Nat → Bool
  | [] => true
  | l :: ls => if s.bktWord (l / 32) &&& 1#32 <<< (l % 32) = 0 then false else s.allSet ls

/-- TEST (R470): all positions are computed before any bit is checked, and no bucket word is written. -/
def execTest (s : State) : Host.Outcome State Fault Refusal :=
  if s.configured then commandOk { s.probe with result := s.probe.allSet s.probe.locations }
  else commandError .notConfigured s

end Sys2Proof.Machine
end

