-- ==== Sys2Proof/Machine/Reads.lean ====
section
/-! DEFINITION. The read operations and the export image (spec/45_export.md). Each read returns a word and changes
nothing (R209 of spec/20_memory.md). -/

namespace Sys2Proof.Machine

/-- The constant of ID, "BFE1" (R111). -/
def idWord : Word := 0x42464531#32

/-- RD ID (R483). -/
def execRdId (s : State) : Host.Outcome State Fault Refusal := readOk idWord s

/-- RD MMAX (R484). -/
def execRdMmax (s : State) : Host.Outcome State Fault Refusal := readOk (BitVec.ofNat 32 s.par.mMax) s

/-- RD KMAX (R486). -/
def execRdKmax (s : State) : Host.Outcome State Fault Refusal := readOk (BitVec.ofNat 32 s.par.kMax) s

/-- RD NUMBITS (R487). -/
def execRdNumbits (s : State) : Host.Outcome State Fault Refusal := readOk s.numbits s

/-- RD NUMHASHES (R488). -/
def execRdNumhashes (s : State) : Host.Outcome State Fault Refusal := readOk s.numhashes s

/-- RD M (R489). -/
def execRdM (s : State) : Host.Outcome State Fault Refusal := readOk s.m s

/-- RD K (R490). -/
def execRdK (s : State) : Host.Outcome State Fault Refusal := readOk s.k s

/-- RD STATUS (R491). -/
def execRdStatus (s : State) : Host.Outcome State Fault Refusal := readOk s.statusWord s

/-- RD ACC (R492). -/
def execRdAcc (s : State) : Host.Outcome State Fault Refusal := readOk s.acc s

/-- RD HASH_A (R493). -/
def execRdHashA (s : State) : Host.Outcome State Fault Refusal := readOk s.hashA s

/-- RD HASH_B (R494). -/
def execRdHashB (s : State) : Host.Outcome State Fault Refusal := readOk s.hashB s

/-- RD LOC[i] (R482, R204): mapped while configured and `i < K`. -/
def execRdLoc (i : Nat) (s : State) : Host.Outcome State Fault Refusal :=
  if s.configured = true ∧ i < s.k.toNat then readOk (s.locWord i) s else busError s

/-- RD BKT[j] (R481, R205): mapped while configured and `j < M / 32`. -/
def execRdBkt (j : Nat) (s : State) : Host.Outcome State Fault Refusal :=
  if s.configured = true ∧ j < s.m.toNat / 32 then readOk (s.bktWord j) s else busError s

/-! ## The export image (R213, R480) -/

/-- Byte `e` of the image: bits `8*n+7 : 8*n` of `BKT[j]`, where `e = 4*j + n` (R213). -/
def State.exportByte (s : State) (e : Nat) : Byte := (s.bktWord (e / 4)).extractLsb' (8 * (e % 4)) 8

/-- The little-endian byte image of the filter, `4 * (M/32)` bytes (R213). -/
def State.exportImage (s : State) : List Byte := (List.range (4 * (s.m.toNat / 32))).map s.exportByte

/-- How a consumer tests bit `l` of an image: bit `l mod 8` of byte `floor(l / 8)` (R485). -/
def imageBit (image : List Byte) (l : Nat) : Bool := (image.getD (l / 8) 0).getLsbD (l % 8)

end Sys2Proof.Machine
end

