-- ==== Sys2Proof/Machine/Dispatch.lean ====
section
/-! DEFINITION. The meaning of each instruction, one arm per constructor. -/

namespace Sys2Proof.Machine

def exec (i : Instr) (s : State) : Host.Outcome State Fault Refusal :=
  match i with
  | .config => Sys2Proof.Machine.execConfig s
  | .add => Sys2Proof.Machine.execAdd s
  | .test => Sys2Proof.Machine.execTest s
  | .keyreset => Sys2Proof.Machine.execKeyreset s
  | .kb b => Sys2Proof.Machine.execKb b s
  | .wrNumbits n => Sys2Proof.Machine.execWrNumbits n s
  | .wrNumhashes n => Sys2Proof.Machine.execWrNumhashes n s
  | .rdId => Sys2Proof.Machine.execRdId s
  | .rdMmax => Sys2Proof.Machine.execRdMmax s
  | .rdKmax => Sys2Proof.Machine.execRdKmax s
  | .rdNumbits => Sys2Proof.Machine.execRdNumbits s
  | .rdNumhashes => Sys2Proof.Machine.execRdNumhashes s
  | .rdM => Sys2Proof.Machine.execRdM s
  | .rdK => Sys2Proof.Machine.execRdK s
  | .rdStatus => Sys2Proof.Machine.execRdStatus s
  | .rdAcc => Sys2Proof.Machine.execRdAcc s
  | .rdHashA => Sys2Proof.Machine.execRdHashA s
  | .rdHashB => Sys2Proof.Machine.execRdHashB s
  | .rdLoc n => Sys2Proof.Machine.execRdLoc n s
  | .rdBkt j => Sys2Proof.Machine.execRdBkt j s

end Sys2Proof.Machine
end

