-- ==== Sys2Proof/Machine/Step.lean ====
section
/-! DEFINITION. One step of the machine: the engine performs the oldest event that has reached its port (R7 of
spec/00_scope.md, R220 of spec/20_memory.md). -/

namespace Sys2Proof.Machine

/-- One step. With no event the engine does nothing, since it has no autonomous step (R7). A transaction is decoded by
R207 and performed as one atomic step (R211). -/
def step (s : State) : Host.Outcome State Fault Refusal :=
  match s.nextEvent with
  | none => .next s
  | some (.reset _, s') => .next (takeReset s')
  | some (.txn t, s') =>
    match decode t with
    | .instr i => exec i s'
    | .busError _ => busError s'
    | .illegalCommand _ => illegalCommand s'

/-- `s` with the transaction of a table word as the next event at the port (log entry 10). -/
def State.withFetchWord (s : State) (nbits w : Nat) : State :=
  { s with port := .txn (tableTxn (tableWord nbits w)) :: s.port }

end Sys2Proof.Machine
end

