-- ==== Sys2Proof/Machine/HostOps.lean ====
section
/-! DEFINITION. The pseudo-operations of R309 (spec/30_encoding.md) as the operations they stand for, and the events a host
sends for a list of operations. -/

namespace Sys2Proof.Machine

/-- `KEY "s"`: one KB per byte, in order. -/
def keyOps (v : List Byte) : List Instr := v.map .kb

/-- `SETUP nb, nh`. -/
def setupOps (nb nh : Word) : List Instr := [.wrNumbits nb, .wrNumhashes nh, .config]

/-- `ADDKEY "s"`. -/
def addKeyOps (v : List Byte) : List Instr := keyOps v ++ [.add]

/-- `TESTKEY "s"`: the answer is bit 1 of the STATUS word read. -/
def testKeyOps (v : List Byte) : List Instr := keyOps v ++ [.test, .rdStatus]

/-- `EXPORT`: the words of the filter in order (R480). -/
def exportOps (s : State) : List Instr := (List.range (s.m.toNat / 32)).map .rdBkt

/-- The events of a list of operations, each exactly one transaction (R308). -/
def eventsOf (is : List Instr) : List Event := is.map fun i => .txn (encode i)

end Sys2Proof.Machine
end

