-- ==== Sys2Proof/Safety.lean ====
section
/-! DEFINITION. The words claims are stated in: the invariant of the machine (R124 of spec/10_state.md), the bus-error cases
(R610 of spec/60_exceptions.md), the positions of a key in closed form (R446 of spec/42_locations.md), the life of one
filter (R428 of spec/41_construction.md), and what a host can tell apart (R125). -/

namespace Sys2Proof.Machine

/-- What holds in every state reachable from reset (R124, with R103 to R108): the parameters are in their ranges, no
filter means `M = K = W = 0` and nothing probed, a filter's `M`, `K` and `W` are in their ranges, its words have been
zeroed by a CONFIG, its positions lie below `M`, and the two memories are in canonical form and hold nothing outside what
has been zeroed. -/
structure State.Inv (s : State) : Prop where
  legal : s.par.Legal
  m_multiple : s.m.toNat % 32 = 0
  unconfigured : s.configured = false → s.m = 0 ∧ s.k = 0 ∧ s.w = .zero
  unprobed : s.configured = false → s.result = false ∧ s.locValid = false ∧ s.hashA = 0 ∧ s.hashB = 0
  m_range : s.configured = true → 32 ≤ s.m.toNat ∧ s.m.toNat ≤ s.par.mMax
  k_range : s.configured = true → 1 ≤ s.k.toNat ∧ s.k.toNat ≤ s.par.kMax
  width : s.configured = true → s.w = locWidth s.m.toNat
  positions_lt : s.configured = true → ∀ i < s.k.toNat, (s.locWord i).toNat < s.m.toNat
  bkt_wf : s.bkt.wf s.freeBkt
  loc_wf : s.loc.wf s.freeLoc
  bkt_zeroed : s.m.toNat / 32 ≤ s.bkt.zeroed ∧ s.bkt.zeroed ≤ s.par.mMax / 32
  loc_zeroed : s.k.toNat ≤ s.loc.zeroed ∧ s.loc.zeroed ≤ s.par.kMax
  bkt_cells : ∀ c ∈ s.bkt.cells, c.1 < s.bkt.zeroed
  loc_cells : ∀ c ∈ s.loc.cells, c.1 < s.loc.zeroed ∧ c.2.toNat < s.par.mMax

/-- A transaction writes. -/
def Txn.isWrite (t : Txn) : Prop := ∃ d, t.dir = .write d

/-- The offsets of the read-only registers (R110). -/
def readOnlyOffsets : List Nat := [0x000, 0x004, 0x008, 0x014, 0x018, 0x01C, 0x028, 0x02C, 0x030]

/-- The cases (a) to (f) of R610, in the words of that rule. -/
def BusErrorCase (s : State) (t : Txn) : Prop :=
  (t.size ≠ 4 ∨ t.byteEnables ≠ 0b1111#4 ∨ t.addr.toNat % 4 ≠ 0)
  ∨ (Txn.isWrite t ∧ (t.addr.toNat ∈ readOnlyOffsets ∨ (0x1000 ≤ t.addr.toNat ∧ t.addr.toNat ≤ 0x1FFF)
      ∨ (0x10000000 ≤ t.addr.toNat ∧ t.addr.toNat ≤ 0x1FFFFFFF)))
  ∨ (t.dir = .read ∧ (t.addr.toNat = 0x020 ∨ t.addr.toNat = 0x024))
  ∨ ((0x034 ≤ t.addr.toNat ∧ t.addr.toNat ≤ 0xFFF) ∨ (0x2000 ≤ t.addr.toNat ∧ t.addr.toNat ≤ 0x0FFFFFFF)
      ∨ 0x20000000 ≤ t.addr.toNat)
  ∨ (t.dir = .read ∧ 0x1000 ≤ t.addr.toNat ∧ t.addr.toNat ≤ 0x1FFF
      ∧ (s.configured = false ∨ s.k.toNat ≤ (t.addr.toNat - 0x1000) / 4))
  ∨ (t.dir = .read ∧ 0x10000000 ≤ t.addr.toNat ∧ t.addr.toNat ≤ 0x1FFFFFFF
      ∧ (s.configured = false ∨ s.m.toNat / 32 ≤ (t.addr.toNat - 0x10000000) / 4))

/-- The transaction is a command: a whole-word write to CMD (R20, R301). -/
def IsCommand (t : Txn) (cw : Word) : Prop :=
  t.dir = .write cw ∧ t.addr = 0x020#32 ∧ t.size = 4 ∧ t.byteEnables = 0b1111#4

/-- Probe position `i` of the key with hash `acc`, in closed form: `emod(a + i*b, m)` (R446). -/
def keyPosition (p : Params) (m acc : Word) (i : Nat) : Nat :=
  (emod (sint32 acc + (i : Int) * sint32 (rehash p acc)) m.toNat).toNat

/-- Bit `l` is one of the `K` bits of the key with hash `acc` in the filter of `s`. -/
def State.keyBit (s : State) (acc : Word) (l : Nat) : Prop := ∃ i < s.k.toNat, l = keyPosition s.par s.m acc i

/-- The sequence with the running value corrected as well, MB §9's alternative (R446; 90_conflicts.md C2). -/
def correctedFrom (b m : Int) : Nat → Int → List Int
  | 0, _ => []
  | n + 1, x => x :: correctedFrom b m n (emod (x + b) m)

/-- The step from `s` ends the life of its filter: a reset, or a CONFIG that succeeds (R428, R701). -/
def State.endsFilter (s : State) : Prop :=
  match s.port with
  | [] => False
  | .reset _ :: _ => True
  | .txn t :: _ => decode t = .instr .config ∧ ¬ s.configInvalid

/-- `u` is reached from `s` within the life of one filter: by steps none of which ends it, and by the arrival of further
events at the port. -/
inductive FilterRun : State → State → Prop where
  | refl (s : State) : FilterRun s s
  | perform {s t u : State} : step s = .next t → ¬ s.endsFilter → FilterRun t u → FilterRun s u
  | arrive {s u : State} (es : List Event) : FilterRun { s with port := s.port ++ es } u → FilterRun s u

/-- No host can tell `s` and `t` apart: they differ at most in the unreachable storage (R125 (c)), in the unspecified
values, and in how they hold the words of the filter. -/
structure Indistinguishable (s t : State) : Prop where
  rest : { s with bkt := t.bkt, loc := t.loc, epoch := t.epoch } = t
  words : ∀ j < s.m.toNat / 32, s.bktWord j = t.bktWord j
  locations : ∀ i < s.k.toNat, s.locWord i = t.locWord i

end Sys2Proof.Machine
end

