-- ==== Sys2Proof/Certificates/Slice0/Obligations.lean ====
section
/-! DEFINITION. The statements about the model. Each docstring names the rule of spec/ it formalises. -/

open Sys2Proof Sys2Proof.Machine

/-! ## Encoding -/

/-- Decoding the transaction of a well-formed instruction gives the instruction back, every operand at every value its
field admits (R300, R305, R308). -/
def Obligations.DecodeOfEncodeIsTheInstruction : Prop :=
  ∀ i : Instr, i.wellFormed = true → decode (encode i) = .instr i

/-- Nothing but an instruction's own transaction decodes to it: the attributes (R630) and bits 31:8 of a key-byte word
(R302) are all that decoding drops, and no reserved encoding falls through to a neighbour (R206, R306). -/
def Obligations.OnlyEncodingsDecodeToInstructions : Prop :=
  ∀ (x : Txn) (i : Instr), decode x = .instr i →
    i.wellFormed = true ∧
    ({ x with attrs := 0 } = encode i ∨
      ∃ b d, i = .kb b ∧ { x with attrs := 0 } = Txn.wordWrite 0x024#32 d ∧ b = BitVec.ofNat 8 (d.toNat % 256))

/-- The rows of the opcode table do not overlap: no transaction is described by two of them. -/
def Obligations.OpcodeTableRowsAreDisjoint : Prop :=
  opcodeTable.length = 20 ∧
  ∀ r ∈ opcodeTable, ∀ r' ∈ opcodeTable, ∀ x : Txn, r.describes x = true → r'.describes x = true → r = r'

/-- A sanity check: words written out from the spec's tables (R110, R303, R308) decode to the operations they stand for,
one of each family, and the illegal words R304 names decode to none. -/
def Obligations.SpecWordsDecode : Prop :=
  decode ⟨.write 0x00000001#32, 0x020#32, 4, 0b1111#4, 0⟩ = .instr .config ∧
  decode ⟨.write 0x00000002#32, 0x020#32, 4, 0b1111#4, 0⟩ = .instr .add ∧
  decode ⟨.write 0x00000003#32, 0x020#32, 4, 0b1111#4, 0⟩ = .instr .test ∧
  decode ⟨.write 0x00000004#32, 0x020#32, 4, 0b1111#4, 0⟩ = .instr .keyreset ∧
  decode ⟨.write 0xFFFFFF61#32, 0x024#32, 4, 0b1111#4, 0⟩ = .instr (.kb 0x61#8) ∧
  decode ⟨.write 0x00000064#32, 0x00C#32, 4, 0b1111#4, 0⟩ = .instr (.wrNumbits 100#32) ∧
  decode ⟨.read, 0x01C#32, 4, 0b1111#4, 0⟩ = .instr .rdStatus ∧
  decode ⟨.read, 0x0000100C#32, 4, 0b1111#4, 0⟩ = .instr (.rdLoc 3) ∧
  decode ⟨.read, 0x10000028#32, 4, 0b1111#4, 0⟩ = .instr (.rdBkt 10) ∧
  decode ⟨.write 0x00000102#32, 0x020#32, 4, 0b1111#4, 0⟩ = .illegalCommand .reservedBits ∧
  decode ⟨.write 0x00000005#32, 0x020#32, 4, 0b1111#4, 0⟩ = .illegalCommand .opcode

/-- The BFE ignores the protection attributes of a transaction (R217, R630). -/
def Obligations.AttributesAreIgnored : Prop :=
  ∀ (s : State) (x : Txn) (rest : List Event) (a : Nat),
    step { s with port := .txn { x with attrs := a } :: rest } = step { s with port := .txn x :: rest }

/-- The host's address of offset `o` is `BFE_BASE + o` (R201): a word access there is the access to offset `o`. R201 speaks
of no wrap; where `BFE_BASE + o` passes 2^32 the addition modulo 2^32 is the model's choice (log entry 14). -/
def Obligations.HostAddressIsBasePlusOffset : Prop :=
  ∀ (p : Params) (o v : Word),
    Txn.atHostAddress p .read (p.bfeBase + o) = Txn.wordRead o ∧
    Txn.atHostAddress p (.write v) (p.bfeBase + o) = Txn.wordWrite o v

/-! ## Steps -/

/-- When the oldest event at the port is a transaction that decodes to `i`, the step is `exec i` on the state with that
event taken, and nothing is added around it (R207, R211, R220). -/
def Obligations.StepRunsTheDecodedInstruction : Prop :=
  ∀ (s : State) (x : Txn) (rest : List Event) (i : Instr),
    s.port = .txn x :: rest → decode x = .instr i → step s = exec i { s with port := rest }

/-- A step takes the oldest event from the port and leaves the others there in their order: no transaction behind another
is reordered, merged or dropped (R220, R221). That the events behind a reset stay too is the model's choice (log entry 7;
R702 leaves it to `BUS_PROTOCOL`). With no event the engine does nothing (R7). What performing the event does is said by
StepRunsTheDecodedInstruction, BusErrorsAreExactlyTheListedCases, IllegalCommandWordsOnlySetErr and
ResetEventGivesTheResetState. -/
def Obligations.StepTakesTheOldestEvent : Prop :=
  (∀ s : State, s.port = [] → step s = .next s) ∧
  (∀ (s t : State) (e : Event) (rest : List Event), s.port = e :: rest → step s = .next t → t.port = rest)

/-- Every step answers a next state: no error stops the machine (R612, R613), and no instruction is refused. -/
def Obligations.EveryStepAnswersANextState : Prop :=
  (∀ (i : Instr) (s : State), ∃ t, exec i s = .next t) ∧ (∀ s : State, ∃ t, step s = .next t)

/-- A transaction ends with ERROR and changes no state in exactly the cases (a) to (f) of R610. -/
def Obligations.BusErrorsAreExactlyTheListedCases : Prop :=
  ∀ (s : State) (x : Txn) (rest : List Event), s.port = .txn x :: rest →
    (BusErrorCase s x → step s = .next { s with port := rest, resp := some .error }) ∧
    (¬ BusErrorCase s x → ∃ t, step s = .next t ∧ t.resp ≠ some .error)

/-- A command word with nonzero RSVD, or with an OPC other than 1 to 4, sets STATUS.ERR to ILLEGAL_CMD and changes
nothing else, and its write returns OK; 0x0000_0102 is one, although its OPC is ADD (R304). -/
def Obligations.IllegalCommandWordsOnlySetErr : Prop :=
  (∀ (s : State) (x : Txn) (rest : List Event) (cw : Word), s.port = .txn x :: rest → IsCommand x cw →
    (cw.toNat / 256 ≠ 0 ∨ ¬ (1 ≤ cw.toNat % 256 ∧ cw.toNat % 256 ≤ 4)) →
      step s = .next { s with port := rest, err := .illegalCmd, resp := some .ok }) ∧
  (∀ (s : State) (rest : List Event), s.port = .txn (Txn.cmd 0x00000102#32) :: rest →
      step s = .next { s with port := rest, err := .illegalCmd, resp := some .ok })

/-- A command ends in success, with STATUS.ERR = 0, or in a command error, with STATUS.ERR set to the error's code and
nothing else changed (R600, R602); its write returns OK in both cases. -/
def Obligations.CommandsSucceedOrOnlySetErr : Prop :=
  ∀ (s : State) (x : Txn) (rest : List Event) (cw : Word), s.port = .txn x :: rest → IsCommand x cw →
    ∃ t, step s = .next t ∧ t.resp = some .ok ∧
      (t.err = .ok ∨ t = { s with port := rest, err := t.err, resp := some .ok })

/-- STATUS.ERR is not sticky: every command overwrites it whatever it was, nothing else but reset writes it, and a read
of STATUS leaves it (R603). -/
def Obligations.ErrIsOverwrittenByCommandsOnly : Prop :=
  (∀ (s : State) (x : Txn) (rest : List Event) (cw : Word) (c : ErrCode), s.port = .txn x :: rest → IsCommand x cw →
    ∃ t u, step s = .next t ∧ step { s with err := c } = .next u ∧ u.err = t.err) ∧
  (∀ (s t : State) (x : Txn) (rest : List Event), s.port = .txn x :: rest → (∀ cw, ¬ IsCommand x cw) →
    step s = .next t → t.err = s.err) ∧
  (∀ (s : State) (a : Option Txn) (rest : List Event), s.port = .reset a :: rest →
    ∃ t, step s = .next t ∧ t.err = .ok)

/-! ## Reset -/

/-- The value of every state element after reset, for every BFE and whatever the unspecified storage holds (R126): the
buckets and the probe buffer cannot be read, and ID, MMAX and KMAX read their constants. The port and the response are the
model's own fields (log entries 4 and 5). -/
def Obligations.ResetValues : Prop :=
  ∀ (p : Params) (epoch : Nat),
    (State.resetOf p epoch).configured = false ∧ (State.resetOf p epoch).m = 0 ∧ (State.resetOf p epoch).k = 0 ∧
    (State.resetOf p epoch).w = .zero ∧ (State.resetOf p epoch).numbits = 0 ∧ (State.resetOf p epoch).numhashes = 0 ∧
    (State.resetOf p epoch).result = false ∧ (State.resetOf p epoch).locValid = false ∧
    (State.resetOf p epoch).err = .ok ∧ (State.resetOf p epoch).acc = p.hashInit ∧ (State.resetOf p epoch).hashA = 0 ∧
    (State.resetOf p epoch).hashB = 0 ∧ (State.resetOf p epoch).statusWord = 0 ∧
    (∀ j, exec (.rdBkt j) (State.resetOf p epoch)
      = .next { State.resetOf p epoch with resp := some .error }) ∧
    (∀ i, exec (.rdLoc i) (State.resetOf p epoch)
      = .next { State.resetOf p epoch with resp := some .error }) ∧
    exec .rdId (State.resetOf p epoch) = .next { State.resetOf p epoch with resp := some (.okData 0x42464531#32) } ∧
    exec .rdMmax (State.resetOf p epoch)
      = .next { State.resetOf p epoch with resp := some (.okData (BitVec.ofNat 32 p.mMax)) } ∧
    exec .rdKmax (State.resetOf p epoch)
      = .next { State.resetOf p epoch with resp := some (.okData (BitVec.ofNat 32 p.kMax)) }

/-- The reset input puts every state element into its reset value from any state (R700), with no response, whatever
transaction it abandons (R702). The events that have not been performed stay at the port (the model's choice, log
entry 7). -/
def Obligations.ResetEventGivesTheResetState : Prop :=
  ∀ (s : State) (a : Option Txn) (rest : List Event), s.port = .reset a :: rest →
    ∃ t n, step s = .next t ∧ t = { State.resetOf s.par n with port := rest } ∧ t.configured = false ∧ t.m = 0 ∧
      t.k = 0 ∧ t.numbits = 0 ∧ t.numhashes = 0 ∧ t.statusWord = 0 ∧ t.acc = s.par.hashInit ∧ t.hashA = 0 ∧
      t.hashB = 0 ∧ t.resp = none ∧ step { s with port := .reset none :: rest } = .next t

/-- Reset is the only way back to CONFIGURED = 0: no command deconfigures the BFE (R701). -/
def Obligations.OnlyResetDeconfigures : Prop :=
  (∀ (s t : State), s.configured = true → (∀ a rest, s.port ≠ .reset a :: rest) → step s = .next t →
    t.configured = true) ∧
  (∀ (s : State) (a : Option Txn) (rest : List Event), s.port = .reset a :: rest →
    ∃ t, step s = .next t ∧ t.configured = false)

/-! ## The invariant -/

/-- The invariant holds after reset, for every BFE whose parameters are in their ranges, and so in State.reset. -/
def Obligations.ResetMeetsTheInvariant : Prop :=
  (∀ (p : Params) (epoch : Nat), p.Legal → (State.resetOf p epoch).Inv) ∧ State.reset.Inv

/-- Every step keeps the invariant (R124 (a), (b) and (d), with R103 to R108). -/
def Obligations.EveryStepKeepsTheInvariant : Prop :=
  ∀ s t : State, s.Inv → step s = .next t → t.Inv

/-- MMAX, KMAX and the other parameters are constants of the instance: no step changes them (R9, R112). -/
def Obligations.ParametersNeverChange : Prop :=
  ∀ s t : State, step s = .next t → t.par = s.par

/-! ## The operand registers and the hash -/

/-- Any word may be written to NUMBITS and NUMHASHES and reads back as written, and writing changes nothing but the
register (R113, R114, R420, R421). -/
def Obligations.OperandRegistersStoreTheWord : Prop :=
  ∀ (n : Word) (s : State),
    exec (.wrNumbits n) s = .next { s with numbits := n, resp := some .ok } ∧
    exec (.wrNumhashes n) s = .next { s with numhashes := n, resp := some .ok } ∧
    exec .rdNumbits { s with numbits := n, resp := some .ok }
      = .next { s with numbits := n, resp := some (.okData n) } ∧
    exec .rdNumhashes { s with numhashes := n, resp := some .ok }
      = .next { s with numhashes := n, resp := some (.okData n) }

/-- KB b sets ACC to `u32(ACC * HASH_PRIME + b)` and changes nothing else, configured or not (R400, R402). -/
def Obligations.KbAbsorbsOneByte : Prop :=
  ∀ (b : Byte) (s : State), ∃ v : Word, v.toNat = (s.acc.toNat * s.par.hashPrime.toNat + b.toNat) % 2 ^ 32 ∧
    exec (.kb b) s = .next { s with acc := v, resp := some .ok }

/-- A KEYBYTE write never fails, absorbs DATA = bits 7:0 and ignores bits 31:8 (R302). -/
def Obligations.KeyByteWriteNeverFailsAndIgnoresHighBits : Prop :=
  ∀ (s : State) (d : Word) (rest : List Event), s.port = .txn (Txn.wordWrite 0x024#32 d) :: rest →
    step s = .next { s with
      port := rest, acc := hashStep s.par s.acc (BitVec.ofNat 8 (d.toNat % 256)), resp := some .ok }

/-- Key bytes are absorbed in the order of their writes: after the KB writes of `v` the accumulator is the hash of `v`
from what it was (R214, R404), and nothing else has changed. -/
def Obligations.KeyBytesHashInWriteOrder : Prop :=
  ∀ (v : List Byte) (s : State) (rest : List Event), s.port = eventsOf (keyOps v) ++ rest →
    ∃ r, Host.Core.run Sys2Proof.core v.length s
      = .next { s with port := rest, acc := hashFrom s.par s.acc v, resp := r }

/-- KEYRESET sets ACC to HASH_INIT and STATUS.ERR to OK, changes nothing else and never fails (R403). -/
def Obligations.KeyresetDiscardsTheKey : Prop :=
  ∀ s : State, exec .keyreset s = .next { s with acc := s.par.hashInit, err := .ok, resp := some .ok }

/-- ACC changes only by a KB write, and goes to HASH_INIT exactly by reset, a successful CONFIG, a successful ADD or TEST,
and KEYRESET; so a failing command keeps it (R404). -/
def Obligations.AccChangesOnlyWhereTheSpecSays : Prop :=
  ∀ (s t : State), step s = .next t →
    (∀ a rest, s.port = .reset a :: rest → t.acc = s.par.hashInit) ∧
    (∀ x rest, s.port = .txn x :: rest →
      (∀ b, decode x = .instr (.kb b) → t.acc = hashStep s.par s.acc b) ∧
      ((decode x = .instr .keyreset ∨ (decode x = .instr .config ∧ ¬ s.configInvalid) ∨
        ((decode x = .instr .add ∨ decode x = .instr .test) ∧ s.configured = true)) → t.acc = s.par.hashInit) ∧
      ((∀ b, decode x ≠ .instr (.kb b)) → decode x ≠ .instr .keyreset →
        ¬ (decode x = .instr .config ∧ ¬ s.configInvalid) →
        ¬ ((decode x = .instr .add ∨ decode x = .instr .test) ∧ s.configured = true) → t.acc = s.acc))

/-- The worked values of R412 for the default parameters: `hash`, its signed value, `rehash` and its signed value, for
the keys "", "a", "apple" and "banana". -/
def Obligations.WorkedHashValues : Prop :=
  ∀ p : Params, p.hashInit = 0x811C9DC5#32 → p.hashPrime = 0x01000193#32 → p.rehashFn = .default →
    (hashOf p [] = 0x811C9DC5#32 ∧ sint32 (hashOf p []) = -2128831035 ∧
      rehash p (hashOf p []) = 0x1EA32CC6#32 ∧ sint32 (rehash p (hashOf p [])) = 514010310) ∧
    (hashOf p [0x61] = 0x050C5D80#32 ∧ sint32 (hashOf p [0x61]) = 84696448 ∧
      rehash p (hashOf p [0x61]) = 0x99D625A3#32 ∧ sint32 (rehash p (hashOf p [0x61])) = -1714018909) ∧
    (hashOf p [0x61, 0x70, 0x70, 0x6C, 0x65] = 0x04D95EA9#32 ∧
      sint32 (hashOf p [0x61, 0x70, 0x70, 0x6C, 0x65]) = 81354409 ∧
      rehash p (hashOf p [0x61, 0x70, 0x70, 0x6C, 0x65]) = 0x9FCC99C5#32 ∧
      sint32 (rehash p (hashOf p [0x61, 0x70, 0x70, 0x6C, 0x65])) = -1613981243) ∧
    (hashOf p [0x62, 0x61, 0x6E, 0x61, 0x6E, 0x61] = 0xC856FF42#32 ∧
      sint32 (hashOf p [0x62, 0x61, 0x6E, 0x61, 0x6E, 0x61]) = -933822654 ∧
      rehash p (hashOf p [0x62, 0x61, 0x6E, 0x61, 0x6E, 0x61]) = 0xB588A52C#32 ∧
      sint32 (rehash p (hashOf p [0x62, 0x61, 0x6E, 0x61, 0x6E, 0x61])) = -1249336020)

/-! ## CONFIG -/

/-- A CONFIG whose requests are in range succeeds: the filter has capacity `32 * ceil(nb/32)` and `nh` probes, its bucket
words and probe elements are 0 and the ones above are not written, the key absorbed before is discarded, and NUMBITS and
NUMHASHES are left as written (R422, R424, R425). -/
def Obligations.ConfigBuildsAnEmptyFilter : Prop :=
  ∀ s : State, s.Inv → s.numbits ≠ 0 → s.numhashes ≠ 0 → 32 * ((s.numbits.toNat + 31) / 32) ≤ s.par.mMax →
    s.numhashes.toNat ≤ s.par.kMax →
    ∃ t, exec .config s = .next t ∧
      t.m.toNat = 32 * ((s.numbits.toNat + 31) / 32) ∧ t.k = s.numhashes ∧ t.w = locWidth t.m.toNat ∧
      (∀ j, t.bktWord j = if j < t.m.toNat / 32 then 0 else s.bktWord j) ∧
      (∀ i, t.locWord i = if i < t.k.toNat then 0 else s.locWord i) ∧
      t = { s with
        m := t.m, k := t.k, w := t.w, bkt := t.bkt, loc := t.loc, configured := true, locValid := false,
        result := false, acc := s.par.hashInit, hashA := 0, hashB := 0, err := .ok, resp := some .ok }

/-- A CONFIG fails with INVALID_CONFIG when NUMBITS or NUMHASHES is 0, the rounded capacity is above M_MAX, or NUMHASHES
is above K_MAX, and then nothing but STATUS.ERR changes: the old filter is intact (R426, R429). -/
def Obligations.FailingConfigKeepsTheFilter : Prop :=
  ∀ s : State,
    (s.numbits = 0 ∨ s.numhashes = 0 ∨ s.par.mMax < 32 * ((s.numbits.toNat + 31) / 32) ∨
      s.par.kMax < s.numhashes.toNat) →
    exec .config s = .next { s with err := .invalidConfig, resp := some .ok }

/-- The rounded capacity is the smallest multiple of 32 that is at least the requested one, a multiple of 32 is kept, and
the bucket array's `ceil(m/32)` words are `m/32` (R423). -/
def Obligations.CapacityIsTheLeastMultipleOf32 : Prop :=
  ∀ nb : Nat,
    roundUp32 nb % 32 = 0 ∧ nb ≤ roundUp32 nb ∧ (∀ q, q % 32 = 0 → nb ≤ q → roundUp32 nb ≤ q) ∧
    (nb % 32 = 0 → roundUp32 nb = nb) ∧ (roundUp32 nb + 31) / 32 = roundUp32 nb / 32

/-- The two forms of the probe-buffer width agree on every capacity: the thresholds 256 and 65536, and
`ceil(ceil(log2 m) / 8)` bytes rounded up to 1, 2 or 4 (R427). -/
def Obligations.WidthThresholdsAgreeWithTheDerivation : Prop :=
  ∀ m : Nat, 32 ≤ m → m ≤ 2 ^ 31 →
    (locWidth m).bytes = (if m ≤ 256 then 1 else if m ≤ 65536 then 2 else 4) ∧
    (locWidth m).bytes = (if (Nat.clog 2 m + 7) / 8 ≤ 1 then 1 else if (Nat.clog 2 m + 7) / 8 ≤ 2 then 2 else 4)

/-! ## Probe positions, ADD and TEST -/

/-- The closed form: every stored position is `emod(a + i*b, m)`, in `[0, m)`; and correcting the running value as well
would store the same positions (R446). -/
def Obligations.PositionsHaveTheClosedForm : Prop :=
  ∀ (a b m : Int) (k : Nat), 0 < m →
    (probePositions a b m k).length = k ∧
    (∀ i, i < k → (probePositions a b m k)[i]? = some (emod (a + (i : Int) * b) m) ∧
      0 ≤ emod (a + (i : Int) * b) m ∧ emod (a + (i : Int) * b) m < m) ∧
    probePositions a b m k = correctedFrom b m k (emod a m)

/-- What a successful ADD or TEST leaves besides bits and RESULT: HASH_A is the key's hash, HASH_B its rehash, LOCVALID is
1, ACC is HASH_INIT, `LOC[i]` is position `i` of the key for `i < K` and unchanged from `K` up (R443, R447). -/
def Obligations.AddAndTestLeaveTheProbe : Prop :=
  ∀ s : State, s.Inv → s.configured = true → ∀ i, i = .add ∨ i = .test →
    ∃ t, exec i s = .next t ∧ t.hashA = s.acc ∧ t.hashB = rehash s.par s.acc ∧ t.locValid = true ∧
      t.acc = s.par.hashInit ∧
      (∀ n, n < s.k.toNat → (t.locWord n).toNat = keyPosition s.par s.m s.acc n ∧ (t.locWord n).toNat < s.m.toNat) ∧
      (∀ n, s.k.toNat ≤ n → t.locWord n = s.locWord n)

/-- ADD sets exactly the key's bits: afterwards a bit is 1 when it was, or when it is one of the key's K positions, so
every word that holds none of them is unchanged. Besides the bits and what the probe leaves, only STATUS.ERR changes; with
no filter ADD fails with NOT_CONFIGURED and changes nothing else (R460). -/
def Obligations.AddSetsExactlyTheKeysBits : Prop :=
  ∀ s : State, s.Inv →
    (s.configured = true → ∃ t, exec .add s = .next t ∧
      (∀ l, t.filterBit l = true ↔ (s.filterBit l = true ∨ s.keyBit s.acc l)) ∧
      (∀ j, (∀ n, n < s.k.toNat → keyPosition s.par s.m s.acc n / 32 ≠ j) → t.bktWord j = s.bktWord j) ∧
      t = { s with
        bkt := t.bkt, loc := t.loc, hashA := s.acc, hashB := rehash s.par s.acc, locValid := true,
        acc := s.par.hashInit, err := .ok, resp := some .ok }) ∧
    (s.configured = false → exec .add s = .next { s with err := .notConfigured, resp := some .ok })

/-- ADD only sets bits, and ADD is the only operation that sets one (R461). -/
def Obligations.AddOnlySetsAndAloneSetsBits : Prop :=
  (∀ s t : State, s.Inv → s.configured = true → exec .add s = .next t → ∀ l, l < s.m.toNat →
    s.filterBit l = true → t.filterBit l = true) ∧
  (∀ s t : State, s.Inv → step s = .next t → ∀ l, l < t.m.toNat → s.filterBit l = false → t.filterBit l = true →
    ∃ x rest, s.port = .txn x :: rest ∧ decode x = .instr .add ∧ s.configured = true)

/-- Two successful ADDs of the same key bytes leave the bucket array as the first left it, as equal data, and the probe
buffer and hashes the same; `u` is any state with the first one's filter (R462). -/
def Obligations.AddIsIdempotent : Prop :=
  ∀ (s t u : State) (v : List Byte), s.Inv → u.Inv → s.configured = true → s.acc = hashOf s.par v →
    exec .add s = .next t →
    u.bkt = t.bkt → u.epoch = t.epoch → u.par = t.par → u.m = t.m → u.k = t.k → u.configured = true →
    u.acc = hashOf u.par v →
    ∃ w, exec .add u = .next w ∧ w.bkt = t.bkt ∧ w.hashA = t.hashA ∧ w.hashB = t.hashB ∧
      ∀ i, i < s.k.toNat → w.locWord i = t.locWord i

/-- Order independence: sending the ADDs of some keys in any order leaves the same bucket array, as equal data, which is
the bitwise OR of the old bits and of every key's bits; HASH_A, HASH_B and LOC are those of the last key sent (R463). -/
def Obligations.AddsInAnyOrderLeaveTheSameBuckets : Prop :=
  ∀ (s : State) (vs ws : List (List Byte)), s.Inv → s.configured = true → s.acc = s.par.hashInit → vs.Perm ws →
    ∃ t u,
      Host.Core.run Sys2Proof.core (eventsOf (vs.flatMap addKeyOps)).length
        { s with port := eventsOf (vs.flatMap addKeyOps) } = .next t ∧
      Host.Core.run Sys2Proof.core (eventsOf (ws.flatMap addKeyOps)).length
        { s with port := eventsOf (ws.flatMap addKeyOps) } = .next u ∧
      t.bkt = u.bkt ∧
      (∀ l, t.filterBit l = true ↔ (s.filterBit l = true ∨ ∃ v ∈ vs, s.keyBit (hashOf s.par v) l)) ∧
      (∀ v, vs.getLast? = some v → t.hashA = hashOf s.par v ∧ t.hashB = rehash s.par (hashOf s.par v) ∧
        ∀ i, i < s.k.toNat → (t.locWord i).toNat = keyPosition s.par s.m (hashOf s.par v) i)

/-- TEST answers 1 exactly when every one of the key's K bits is 1, and writes no bucket word. With no filter it fails
with NOT_CONFIGURED and keeps RESULT (R470, R471). -/
def Obligations.TestAnswersWhetherAllBitsAreSet : Prop :=
  ∀ s : State, s.Inv →
    (s.configured = true → ∃ t, exec .test s = .next t ∧
      (t.result = true ↔ ∀ l, s.keyBit s.acc l → s.filterBit l = true) ∧
      t = { s with
        loc := t.loc, hashA := s.acc, hashB := rehash s.par s.acc, locValid := true, acc := s.par.hashInit,
        result := t.result, err := .ok, resp := some .ok }) ∧
    (s.configured = false → exec .test s = .next { s with err := .notConfigured, resp := some .ok })

/-- TEST does not change the bucket array: it changes only LOC, HASH_A, HASH_B, ACC, LOCVALID, RESULT and ERR (R472). -/
def Obligations.TestChangesOnlyItsFields : Prop :=
  ∀ s t : State, exec .test s = .next t →
    t.bkt = s.bkt ∧
    t = { s with
      loc := t.loc, hashA := t.hashA, hashB := t.hashB, acc := t.acc, locValid := t.locValid, result := t.result,
      err := t.err, resp := some .ok }

/-- No false negatives: when a key has been added, a TEST of the same bytes within the life of that filter answers 1,
whatever transactions come between, and whatever the step hash is (R474; its contrapositive is R473's first half). -/
def Obligations.NoFalseNegatives : Prop :=
  ∀ (s t u : State) (v : List Byte), s.Inv → s.configured = true → s.acc = hashOf s.par v → exec .add s = .next t →
    FilterRun t u → u.acc = hashOf u.par v →
    ∃ w, exec .test u = .next w ∧ w.result = true ∧ w.err = .ok

/-- Between two successful CONFIGs a bit of the filter once 1 stays 1, and M, K and W stay: only a reset or a CONFIG that
succeeds ends a filter (R104, R105, R124 (c), R428). -/
def Obligations.BitsStaySetWithinAFilter : Prop :=
  ∀ s t : State, s.Inv → s.configured = true → ¬ s.endsFilter → step s = .next t →
    t.m = s.m ∧ t.k = s.k ∧ t.w = s.w ∧ t.configured = true ∧
    ∀ l, s.filterBit l = true → t.filterBit l = true

/-- The bucket array is written only by a successful ADD, a successful CONFIG and reset; M, K and W only by the last two
(R104 to R106, R205, R485). -/
def Obligations.FilterStateHasNoOtherWriter : Prop :=
  ∀ s t : State, ¬ s.endsFilter → step s = .next t →
    t.m = s.m ∧ t.k = s.k ∧ t.w = s.w ∧
    ((∀ x rest, s.port = .txn x :: rest → decode x = .instr .add → s.configured = false) → t.bkt = s.bkt)

/-- The probe buffer, HASH_A, HASH_B and LOCVALID hold the values of the last successful ADD or TEST until the next
successful ADD, TEST or CONFIG (or reset), and RESULT that of the last TEST until the next TEST or CONFIG (R712, R713). -/
def Obligations.ProbeAndResultAreHeld : Prop :=
  ∀ (s t : State), ¬ s.endsFilter → step s = .next t →
    ((∀ x rest, s.port = .txn x :: rest → (decode x = .instr .add ∨ decode x = .instr .test) →
        s.configured = false) →
      t.loc = s.loc ∧ t.hashA = s.hashA ∧ t.hashB = s.hashB ∧ t.locValid = s.locValid) ∧
    ((∀ x rest, s.port = .txn x :: rest → decode x = .instr .test → s.configured = false) → t.result = s.result)

/-! ## Reads and export -/

/-- What each register read returns, with no other effect (R483, R484, R486 to R490, R492 to R494). -/
def Obligations.RegisterReadsReturnTheRegister : Prop :=
  ∀ s : State,
    exec .rdId s = .next { s with resp := some (.okData 0x42464531#32) } ∧
    exec .rdMmax s = .next { s with resp := some (.okData (BitVec.ofNat 32 s.par.mMax)) } ∧
    exec .rdKmax s = .next { s with resp := some (.okData (BitVec.ofNat 32 s.par.kMax)) } ∧
    exec .rdNumbits s = .next { s with resp := some (.okData s.numbits) } ∧
    exec .rdNumhashes s = .next { s with resp := some (.okData s.numhashes) } ∧
    exec .rdM s = .next { s with resp := some (.okData s.m) } ∧
    exec .rdK s = .next { s with resp := some (.okData s.k) } ∧
    exec .rdAcc s = .next { s with resp := some (.okData s.acc) } ∧
    exec .rdHashA s = .next { s with resp := some (.okData s.hashA) } ∧
    exec .rdHashB s = .next { s with resp := some (.okData s.hashB) }

/-- RD STATUS returns CONFIGURED in bit 0, RESULT in bit 1, LOCVALID in bit 2, LOCW in bits 7:4, ERR in bits 11:8 and
zeros elsewhere, with the codes of R117 and R601, and changes nothing, ERR included (R117, R491). -/
def Obligations.StatusReadShowsTheFields : Prop :=
  ∀ s : State, ∃ v : Word,
    exec .rdStatus s = .next { s with resp := some (.okData v) } ∧
    v.getLsbD 0 = s.configured ∧ v.getLsbD 1 = s.result ∧ v.getLsbD 2 = s.locValid ∧ v.getLsbD 3 = false ∧
    v.toNat / 16 % 16 = (match s.w with | .zero => 0 | .one => 1 | .two => 2 | .four => 4) ∧
    v.toNat / 256 = (match s.err with | .ok => 0 | .illegalCmd => 1 | .invalidConfig => 2 | .notConfigured => 3)

/-- RD LOC[i] returns LOC[i] when a filter exists and `i < K`, and is a bus error otherwise; no side effect (R204, R482). -/
def Obligations.LocReadIsMappedBelowK : Prop :=
  ∀ (i : Nat) (s : State),
    (s.configured = true ∧ i < s.k.toNat → exec (.rdLoc i) s = .next { s with resp := some (.okData (s.locWord i)) }) ∧
    (s.configured = false ∨ s.k.toNat ≤ i → exec (.rdLoc i) s = .next { s with resp := some .error })

/-- RD BKT[j] returns BKT[j] when a filter exists and `j < M/32`, and is a bus error otherwise; no side effect (R205,
R481). -/
def Obligations.BktReadIsMappedBelowM : Prop :=
  ∀ (j : Nat) (s : State),
    (s.configured = true ∧ j < s.m.toNat / 32 →
      exec (.rdBkt j) s = .next { s with resp := some (.okData (s.bktWord j)) }) ∧
    (s.configured = false ∨ s.m.toNat / 32 ≤ j → exec (.rdBkt j) s = .next { s with resp := some .error })

/-- Every read is free of side effects, whether it succeeds or not, and idempotent: its response does not depend on what
was read before (R209). -/
def Obligations.ReadsHaveNoSideEffect : Prop :=
  ∀ (s : State) (x : Txn) (rest rest' : List Event) (q : Option Response), x.dir = .read →
    ∃ t u, step { s with port := .txn x :: rest } = .next t ∧
      step { s with port := .txn x :: rest', resp := q } = .next u ∧
      t = { s with port := rest, resp := t.resp } ∧ u.resp = t.resp

/-- The export image is little-endian: `4 * (M/32)` bytes, byte `4*j + n` is bits `8*n+7 : 8*n` of `BKT[j]`, byte `e`
holds filter bits `8*e` to `8*e + 7`, and storing the words read in word order, each little-endian, produces it (R213). -/
def Obligations.ExportImageIsLittleEndian : Prop :=
  ∀ s : State,
    s.exportImage.length = 4 * (s.m.toNat / 32) ∧
    (∀ j n, j < s.m.toNat / 32 → n < 4 →
      ∃ b : Byte, s.exportImage[4 * j + n]? = some b ∧ b.toNat = (s.bktWord j).toNat / 2 ^ (8 * n) % 256) ∧
    (∀ e n, e < 4 * (s.m.toNat / 32) → n < 8 →
      ∃ b : Byte, s.exportImage[e]? = some b ∧ b.getLsbD n = s.filterBit (8 * e + n)) ∧
    s.exportImage = (List.range (s.m.toNat / 32)).flatMap fun j => bytesOf (s.bktWord j)

/-- A consumer that tests bit `l` of the image as bit `l mod 8` of byte `floor(l/8)`, with the same parameters, gets the
answer TEST gives (R485). -/
def Obligations.ConsumerOfTheImageAgreesWithTest : Prop :=
  ∀ s t : State, s.Inv → s.configured = true → exec .test s = .next t →
    (t.result = true ↔ ∀ i, i < s.k.toNat → imageBit s.exportImage (keyPosition s.par s.m s.acc i) = true)

/-! ## Hidden state -/

/-- The unreachable storage and the unspecified values cannot be observed: two states that differ in nothing else answer
every event alike and stay so (R125, R126; 93_implementation_defined.md I4 and I5). -/
def Obligations.UnreachableStorageIsUnobservable : Prop :=
  ∀ s t s' : State, s.Inv → t.Inv → Indistinguishable s t → step s = .next s' →
    ∃ t', step t = .next t' ∧ Indistinguishable s' t' ∧ s'.resp = t'.resp
end

