-- ==== Sys2Proof/Laws/Arith.lean ====
section
/-! SUPPORT. The arithmetic of the probe sequence: what the remainders are, the range of what is stored, and the value of
each position. -/

namespace Sys2Proof.Machine

variable {a b m x : Int} {k n i : Nat}

theorem sint32_eq_toInt (v : Word) : sint32 v = v.toInt := by
  unfold sint32; rw [BitVec.toInt_eq_toNat_cond]; split <;> split <;> omega

theorem trem_eq_tmod : trem x m = x.tmod m := by
  unfold trem
  match x, m with
  | .ofNat 0, m => simp
  | .ofNat (n + 1), .ofNat k => simp [Int.tmod, abs_of_nonneg (show (0 : Int) ≤ n + 1 by omega)]
  | .ofNat (n + 1), .negSucc k => simp [Int.tmod, abs_of_nonneg (show (0 : Int) ≤ n + 1 by omega)]
  | .negSucc n, .ofNat k => simp [Int.tmod]
  | .negSucc n, .negSucc k => simp [Int.tmod]

theorem trem_range (hm : 0 < m) : -m < trem x m ∧ trem x m < m := by
  rw [trem_eq_tmod]; exact ⟨Int.lt_tmod_of_pos x hm, Int.tmod_lt_of_pos x hm⟩

theorem trem_emod : trem x m % m = x % m := by
  rw [trem_eq_tmod, Int.tmod_def, Int.sub_mul_emod_self_left]

theorem storedPosition_eq (h : -m < x ∧ x < m) : storedPosition m x = x % m := by
  unfold storedPosition
  split
  · rw [← Int.add_emod_right x m, Int.emod_eq_of_lt (by omega) (by omega)]
  · rw [Int.emod_eq_of_lt (by omega) h.2]

@[simp] theorem positionsFrom_length : (positionsFrom b m n x).length = n := by
  induction n generalizing x with
  | zero => rfl
  | succ n ih => simp [positionsFrom, ih]

@[simp] theorem probePositions_length : (probePositions a b m k).length = k := positionsFrom_length

/-- Each stored value is the Euclidean remainder of its term (R446). -/
theorem positionsFrom_getElem (hm : 0 < m) (h : -m < x ∧ x < m) (hi : i < n) :
    (positionsFrom b m n x)[i]'(by simpa using hi) = (x + i * b) % m := by
  induction n generalizing x i with
  | zero => omega
  | succ n ih =>
    cases i with
    | zero => simp [positionsFrom, storedPosition_eq h]
    | succ i =>
      simp only [positionsFrom, List.getElem_cons_succ]
      rw [ih (trem_range hm) (by omega), Int.add_emod, trem_emod, ← Int.add_emod]
      congr 1; push_cast; ring

theorem probePositions_getElem (hm : 0 < m) (hi : i < k) :
    (probePositions a b m k)[i]'(by simpa using hi) = (a + i * b) % m := by
  have h := positionsFrom_getElem (b := b) hm (trem_range (x := a) hm) hi
  rw [Int.add_emod, trem_emod, ← Int.add_emod] at h
  exact h

theorem probePositions_range (hm : 0 < m) (h : x ∈ probePositions a b m k) : 0 ≤ x ∧ x < m := by
  obtain ⟨i, hi, rfl⟩ := List.getElem_of_mem h
  rw [probePositions_getElem hm (by simpa using hi)]
  exact ⟨Int.emod_nonneg _ (by omega), Int.emod_lt_of_pos _ hm⟩

end Sys2Proof.Machine
end

