-- ==== Sys2Proof/Laws/Decode.lean ====
section
/-! SUPPORT. What the decoder does, once for each of its parts. -/

namespace Sys2Proof

open Sys2Proof.Machine

variable {x : Txn} {a : Nat} {r : Reg} {i : Instr} {cw : Word}

/-! ## The register map -/

theorem Reg.offset_of_ofOffset (h : Reg.ofOffset a = some r) : r.offset = a := by
  simpa using List.find?_some h

theorem Reg.ofOffset_offset (r : Reg) : Reg.ofOffset r.offset = some r := by cases r <;> decide

theorem Reg.ofOffset_eq_none (h : 0x034 ≤ a) : Reg.ofOffset a = none := by
  cases hr : Reg.ofOffset a with
  | none => rfl
  | some r =>
    have := Reg.offset_of_ofOffset hr
    cases r <;> simp only [Reg.offset] at this <;> omega

theorem Reg.offset_ne_of_ofOffset_eq_none (h : Reg.ofOffset a = none) (r : Reg) : r.offset ≠ a := by
  rintro rfl
  rw [Reg.ofOffset_offset] at h
  cases h

/-- The aligned offsets that are no register's lie above the registers. -/
theorem le_of_ofOffset_eq_none (h : Reg.ofOffset a = none) (ha : a % 4 = 0) : 0x034 ≤ a := by
  have h0 := Reg.offset_ne_of_ofOffset_eq_none h
  by_contra hlt
  have : a = 0 ∨ a = 4 ∨ a = 8 ∨ a = 12 ∨ a = 16 ∨ a = 20 ∨ a = 24 ∨ a = 28 ∨ a = 32 ∨ a = 36 ∨ a = 40 ∨ a = 44
      ∨ a = 48 := by omega
  rcases this with rfl | rfl | rfl | rfl | rfl | rfl | rfl | rfl | rfl | rfl | rfl | rfl | rfl
  · exact h0 .id rfl
  · exact h0 .mmax rfl
  · exact h0 .kmax rfl
  · exact h0 .numbits rfl
  · exact h0 .numhashes rfl
  · exact h0 .m rfl
  · exact h0 .k rfl
  · exact h0 .status rfl
  · exact h0 .cmd rfl
  · exact h0 .keybyte rfl
  · exact h0 .acc rfl
  · exact h0 .hashA rfl
  · exact h0 .hashB rfl

/-! ## Fields of a word -/

theorem keyData_eq (d : Word) : keyData d = BitVec.ofNat 8 (d.toNat % 256) := by
  apply BitVec.eq_of_toNat_eq; simp [keyData]

theorem cmdOpc_toNat (cw : Word) : (cmdOpc cw).toNat = cw.toNat % 256 := by simp [cmdOpc]

theorem cmdRsvd_toNat (cw : Word) : (cmdRsvd cw).toNat = cw.toNat / 256 := by
  have := cw.isLt
  simp only [cmdRsvd, BitVec.extractLsb'_toNat, Nat.shiftRight_eq_div_pow]
  omega

/-- The five things a command word can be (R301, R304). -/
theorem decodeCommand_cases (cw : Word) :
    (cw = 1 ∧ decodeCommand cw = .instr .config) ∨ (cw = 2 ∧ decodeCommand cw = .instr .add)
    ∨ (cw = 3 ∧ decodeCommand cw = .instr .test) ∨ (cw = 4 ∧ decodeCommand cw = .instr .keyreset)
    ∨ ((cw.toNat / 256 ≠ 0 ∨ ¬ (1 ≤ cw.toNat % 256 ∧ cw.toNat % 256 ≤ 4))
      ∧ ∃ c, decodeCommand cw = .illegalCommand c) := by
  have ho := cmdOpc_toNat cw
  have h1 : cmdRsvd cw = 0 ↔ cw.toNat / 256 = 0 := by
    rw [← cmdRsvd_toNat, ← BitVec.toNat_inj]; rfl
  unfold decodeCommand
  by_cases h : cmdRsvd cw = 0
  · rw [if_neg (by simp [h])]
    have key : ∀ n : Nat, n < 256 → cmdOpc cw = BitVec.ofNat 8 n → cw = BitVec.ofNat 32 n := by
      intro n hn e
      have := h1.1 h
      apply BitVec.eq_of_toNat_eq
      rw [e] at ho
      simp only [BitVec.toNat_ofNat] at ho ⊢
      omega
    unfold commandOf
    by_cases a1 : cmdOpc cw = 1#8
    · exact .inl ⟨key 1 (by decide) a1, by simp [a1]⟩
    by_cases a2 : cmdOpc cw = 2#8
    · exact .inr (.inl ⟨key 2 (by decide) a2, by simp [a2]⟩)
    by_cases a3 : cmdOpc cw = 3#8
    · exact .inr (.inr (.inl ⟨key 3 (by decide) a3, by simp [a3]⟩))
    by_cases a4 : cmdOpc cw = 4#8
    · exact .inr (.inr (.inr (.inl ⟨key 4 (by decide) a4, by simp [a4]⟩)))
    refine .inr (.inr (.inr (.inr ⟨.inr fun ⟨b1, b2⟩ => ?_, .opcode, by simp [a1, a2, a3, a4]⟩)))
    have : (cmdOpc cw).toNat = 1 ∨ (cmdOpc cw).toNat = 2 ∨ (cmdOpc cw).toNat = 3 ∨ (cmdOpc cw).toNat = 4 := by omega
    rcases this with h | h | h | h
    · exact a1 (BitVec.eq_of_toNat_eq h)
    · exact a2 (BitVec.eq_of_toNat_eq h)
    · exact a3 (BitVec.eq_of_toNat_eq h)
    · exact a4 (BitVec.eq_of_toNat_eq h)
  · rw [if_pos h]
    exact .inr (.inr (.inr (.inr ⟨.inl fun e => h (h1.2 e), _, rfl⟩)))

/-! ## Transactions -/

/-- An access that is not an aligned whole word is a bus error (R208). -/
theorem decode_not_word (h : x.size ≠ 4 ∨ x.byteEnables ≠ 0b1111#4 ∨ x.addr.toNat % 4 ≠ 0) :
    ∃ c, decode x = .busError c := by
  unfold decode
  split
  · exact ⟨_, rfl⟩
  split
  · exact ⟨_, rfl⟩
  split
  · exact ⟨_, rfl⟩
  simp_all

/-- An aligned whole-word access to a register. -/
theorem decode_reg (h1 : x.size = 4) (h2 : x.byteEnables = 0b1111#4) (h3 : x.addr.toNat = r.offset) :
    decode x = decodeReg r x.dir := by
  have h4 : r.offset % 4 = 0 := by cases r <;> decide
  unfold decode
  rw [if_neg (by simp [h1]), if_neg (by simp [h2]), if_neg (by rw [h3]; simp [h4]), h3, Reg.ofOffset_offset]

/-- An aligned whole-word access above the registers. -/
theorem decode_window (h1 : x.size = 4) (h2 : x.byteEnables = 0b1111#4) (h3 : x.addr.toNat % 4 = 0)
    (h4 : 0x034 ≤ x.addr.toNat) : decode x = decodeWindow x.addr.toNat x.dir := by
  unfold decode
  rw [if_neg (by simp [h1]), if_neg (by simp [h2]), if_neg (by simp [h3]), Reg.ofOffset_eq_none h4]

/-- An aligned whole-word access is one to a register or one above the registers. -/
theorem reg_or_window (h3 : x.addr.toNat % 4 = 0) : (∃ r : Reg, x.addr.toNat = r.offset) ∨ 0x034 ≤ x.addr.toNat := by
  cases hr : Reg.ofOffset x.addr.toNat with
  | none => exact .inr (le_of_ofOffset_eq_none hr h3)
  | some r => exact .inl ⟨r, (Reg.offset_of_ofOffset hr).symm⟩

/-- Only aligned whole-word accesses decode to instructions. -/
theorem word_of_decode_instr (h : decode x = .instr i) :
    x.size = 4 ∧ x.byteEnables = 0b1111#4 ∧ x.addr.toNat % 4 = 0 := by
  by_contra hn
  obtain ⟨c, hc⟩ := decode_not_word (x := x) (by tauto)
  rw [hc] at h
  cases h

/-- A command is decoded by its word. -/
theorem decode_of_isCommand (h : IsCommand x cw) : decode x = decodeCommand cw := by
  rw [decode_reg (r := .cmd) h.2.2.1 h.2.2.2 (by rw [h.2.1]; decide), h.1]
  rfl

theorem decode_wordWrite_keybyte (d : Word) : decode (Txn.wordWrite 0x024#32 d) = .instr (.kb (keyData d)) :=
  decode_reg (r := .keybyte) rfl rfl rfl

/-- The windows in plain numbers. -/
theorem decodeWindow_eq (a : Nat) (dir : Dir) :
    decodeWindow a dir =
      if 4096 ≤ a ∧ a < 8192 then
        (match dir with | .read => .instr (.rdLoc ((a - 4096) / 4)) | .write _ => .busError .writeWindow)
      else if 268435456 ≤ a ∧ a < 536870912 then
        (match dir with | .read => .instr (.rdBkt ((a - 268435456) / 4)) | .write _ => .busError .writeWindow)
      else .busError .reserved := rfl

end Sys2Proof
end

