-- ==== Sys2Proof/Laws/Memory.lean ====
section
/-! SUPPORT. What each operation on a word memory does: reading after it, its canonical form, and that equal contents are
equal data. -/

namespace Sys2Proof.Machine

variable {free : Nat → Word} {mem mem' : Memory} {i j n : Nat} {v : Word} {l : List (Nat × Word)}

/-! ## Lists of cells -/

theorem cellsFind_insert : cellsFind i (cellsInsert j v l) = if i = j then some v else cellsFind i l := by
  induction l with
  | nil => simp [cellsInsert, cellsFind, eq_comm]
  | cons c rest ih =>
    unfold cellsInsert
    split
    · simp [cellsFind, eq_comm]
    · split
      · simp only [cellsFind]; grind
      · simp only [cellsFind, ih]; grind

theorem cellsFind_filter {p : Nat → Bool} :
    cellsFind i (l.filter fun c => p c.1) = if p i then cellsFind i l else none := by
  induction l with
  | nil => simp [cellsFind]
  | cons c rest ih => grind [cellsFind]

theorem cellsFind_erase : cellsFind i (cellsErase j l) = if i = j then none else cellsFind i l := by
  have h := cellsFind_filter (i := i) (l := l) (p := fun k => decide (k ≠ j))
  by_cases e : i = j <;> simp_all [cellsErase]

theorem mem_cellsInsert {c : Nat × Word} (h : c ∈ cellsInsert j v l) : c = (j, v) ∨ c ∈ l := by
  induction l with
  | nil => simpa [cellsInsert] using h
  | cons d rest ih => unfold cellsInsert at h; grind

theorem pairwise_cellsInsert (h : l.Pairwise fun c d => c.1 < d.1) :
    (cellsInsert j v l).Pairwise fun c d => c.1 < d.1 := by
  induction l with
  | nil => simp [cellsInsert]
  | cons c rest ih =>
    rw [List.pairwise_cons] at h
    unfold cellsInsert
    split
    · rename_i hj
      refine List.pairwise_cons.2 ⟨fun d hd => ?_, List.pairwise_cons.2 h⟩
      rcases List.mem_cons.1 hd with rfl | hd
      · exact hj
      · exact Nat.lt_trans hj (h.1 d hd)
    · split
      · rename_i hj
        exact List.pairwise_cons.2 ⟨fun d hd => hj ▸ h.1 d hd, h.2⟩
      · refine List.pairwise_cons.2 ⟨fun d hd => ?_, ih h.2⟩
        rcases mem_cellsInsert hd with rfl | hd
        · grind
        · exact h.1 d hd

/-- A listed word of a rising list is found. -/
theorem cellsFind_of_mem (h : l.Pairwise fun c d => c.1 < d.1) {c : Nat × Word} (hc : c ∈ l) :
    cellsFind c.1 l = some c.2 := by
  induction l with
  | nil => simp at hc
  | cons d rest ih =>
    rw [List.pairwise_cons] at h
    rcases List.mem_cons.1 hc with rfl | hc
    · simp [cellsFind]
    · have := h.1 c hc
      simp [cellsFind, Nat.ne_of_lt this, ih h.2 hc]

theorem mem_of_cellsFind (h : cellsFind j l = some v) : (j, v) ∈ l := by
  induction l with
  | nil => simp [cellsFind] at h
  | cons c rest ih => simp only [cellsFind] at h; grind

/-! ## Reading after an operation -/

@[simp] theorem Memory.write_zeroed : (mem.write free j v).zeroed = mem.zeroed := by
  unfold Memory.write; split <;> rfl

@[simp] theorem Memory.write_unlisted : (mem.write free j v).unlisted free i = mem.unlisted free i := by
  simp [Memory.unlisted]

theorem Memory.read_write : (mem.write free j v).read free i = if i = j then v else mem.read free i := by
  unfold Memory.read
  rw [Memory.write_unlisted]
  unfold Memory.write
  split
  · rename_i h
    simp only [cellsFind_erase]
    grind
  · simp only [cellsFind_insert]
    grind

@[simp] theorem Memory.read_write_same : (mem.write free j v).read free j = v := by simp [Memory.read_write]

theorem Memory.read_write_other (h : i ≠ j) : (mem.write free j v).read free i = mem.read free i := by
  simp [Memory.read_write, h]

@[simp] theorem Memory.zeroBelow_zeroed : (mem.zeroBelow n).zeroed = max mem.zeroed n := rfl

theorem Memory.read_zeroBelow : (mem.zeroBelow n).read free i = if i < n then 0 else mem.read free i := by
  have h := cellsFind_filter (i := i) (l := mem.cells) (p := fun k => decide (n ≤ k))
  unfold Memory.read Memory.unlisted Memory.zeroBelow
  simp only [h]
  grind

@[simp] theorem Memory.writeFrom_zeroed {vs : List Word} :
    ∀ {mem : Memory} {j : Nat}, (mem.writeFrom free j vs).zeroed = mem.zeroed := by
  induction vs with
  | nil => intros; rfl
  | cons v vs ih => intro mem j; simp [Memory.writeFrom, ih]

theorem Memory.read_writeFrom {vs : List Word} : ∀ {mem : Memory} {j : Nat},
    (mem.writeFrom free j vs).read free i = if j ≤ i ∧ i < j + vs.length then vs.getD (i - j) 0 else mem.read free i := by
  induction vs with
  | nil => intro mem j; simp [Memory.writeFrom]
  | cons v vs ih =>
    intro mem j
    simp only [Memory.writeFrom, ih, Memory.read_write, List.length_cons]
    by_cases hij : i = j
    · subst hij; simp
    · by_cases h : j + 1 ≤ i ∧ i < j + 1 + vs.length
      · have e : i - j = (i - (j + 1)) + 1 := by omega
        rw [if_pos h, if_pos (by omega), e, List.getD_cons_succ]
      · rw [if_neg h, if_neg hij, if_neg (by omega)]

/-! ## The canonical form -/

theorem Memory.mem_write {c : Nat × Word} (h : c ∈ (mem.write free j v).cells) : c = (j, v) ∨ c ∈ mem.cells := by
  unfold Memory.write at h
  split at h
  · exact .inr (List.mem_filter.1 h).1
  · exact mem_cellsInsert h

theorem Memory.wf_write (h : mem.wf free) : (mem.write free j v).wf free := by
  refine ⟨?_, fun c hc => ?_⟩
  · unfold Memory.write
    split
    · exact h.1.filter _
    · exact pairwise_cellsInsert h.1
  · rw [Memory.write_unlisted]
    rcases Memory.mem_write hc with rfl | hm
    · intro e
      unfold Memory.write at hc
      simp only at e
      rw [if_pos e] at hc
      simp [cellsErase] at hc
    · exact h.2 c hm

theorem Memory.wf_writeFrom {vs : List Word} :
    ∀ {mem : Memory} {j : Nat}, mem.wf free → (mem.writeFrom free j vs).wf free := by
  induction vs with
  | nil => exact fun h => h
  | cons v vs ih => exact fun h => ih (Memory.wf_write h)

theorem Memory.mem_writeFrom {vs : List Word} {c : Nat × Word} : ∀ {mem : Memory} {j : Nat},
    c ∈ (mem.writeFrom free j vs).cells → (j ≤ c.1 ∧ c.1 < j + vs.length ∧ c.2 ∈ vs) ∨ c ∈ mem.cells := by
  induction vs with
  | nil => exact fun h => .inr h
  | cons v vs ih =>
    intro mem j h
    rcases ih h with ⟨h1, h2, h3⟩ | h
    · exact .inl ⟨by omega, by simp; omega, by simp [h3]⟩
    · rcases Memory.mem_write h with rfl | h
      · exact .inl ⟨Nat.le_refl _, by simp, by simp⟩
      · exact .inr h

theorem Memory.wf_zeroBelow (h : mem.wf free) : (mem.zeroBelow n).wf free := by
  refine ⟨h.1.filter _, fun c hc => ?_⟩
  have hm := List.mem_filter.1 hc
  have := h.2 c hm.1
  simp only [Memory.unlisted, Memory.zeroBelow_zeroed] at *
  grind

/-- Memories in canonical form with equal contents are equal data. -/
theorem Memory.ext_of_read (h : mem.wf free) (h' : mem'.wf free) (hz : mem.zeroed = mem'.zeroed)
    (hr : ∀ j, mem.read free j = mem'.read free j) : mem = mem' := by
  have key : ∀ {a b : Memory}, a.wf free → b.wf free → a.zeroed = b.zeroed →
      (∀ j, a.read free j = b.read free j) → ∀ c ∈ a.cells, c ∈ b.cells := by
    intro a b ha hb hz hr c hc
    have hra := hr c.1
    have hu : a.unlisted free c.1 = b.unlisted free c.1 := by simp [Memory.unlisted, hz]
    unfold Memory.read at hra
    rw [cellsFind_of_mem ha.1 hc] at hra
    cases hb' : cellsFind c.1 b.cells with
    | none => rw [hb', ← hu] at hra; exact absurd hra (ha.2 c hc)
    | some w => rw [hb'] at hra; have := mem_of_cellsFind hb'; simp at hra; rwa [← hra] at this
  have sub : ∀ c, c ∈ mem.cells ↔ c ∈ mem'.cells := fun c =>
    ⟨key h h' hz hr c, key h' h hz.symm (fun j => (hr j).symm) c⟩
  have hp : mem.cells.Perm mem'.cells := by
    refine (List.perm_ext_iff_of_nodup ?_ ?_).2 sub
    · exact h.1.imp fun hlt e => by simp [e] at hlt
    · exact h'.1.imp fun hlt e => by simp [e] at hlt
  have hc : mem.cells = mem'.cells :=
    hp.eq_of_pairwise (fun a b _ _ hab hba => absurd hab (Nat.not_lt_of_gt hba)) h.1 h'.1
  cases mem; cases mem'; simp_all

/-- Writing a word its own value changes nothing. -/
theorem Memory.write_read_self (h : mem.wf free) : mem.write free j (mem.read free j) = mem := by
  refine Memory.ext_of_read (Memory.wf_write h) h Memory.write_zeroed fun i => ?_
  rw [Memory.read_write]; grind

end Sys2Proof.Machine
end

