-- ==== Sys2Proof/Laws/State.lean ====
section
/-! SUPPORT. One lemma per field of State and update of State: what the field is after the update. -/

namespace Sys2Proof.Machine

variable (s : State)

/-! ## respond -/

@[simp] theorem State.respond_configured (r : Response) : (s.respond r).configured = s.configured := rfl
@[simp] theorem State.respond_result (r : Response) : (s.respond r).result = s.result := rfl
@[simp] theorem State.respond_locValid (r : Response) : (s.respond r).locValid = s.locValid := rfl
@[simp] theorem State.respond_w (r : Response) : (s.respond r).w = s.w := rfl
@[simp] theorem State.respond_err (r : Response) : (s.respond r).err = s.err := rfl
@[simp] theorem State.respond_m (r : Response) : (s.respond r).m = s.m := rfl
@[simp] theorem State.respond_k (r : Response) : (s.respond r).k = s.k := rfl
@[simp] theorem State.respond_numbits (r : Response) : (s.respond r).numbits = s.numbits := rfl
@[simp] theorem State.respond_numhashes (r : Response) : (s.respond r).numhashes = s.numhashes := rfl
@[simp] theorem State.respond_acc (r : Response) : (s.respond r).acc = s.acc := rfl
@[simp] theorem State.respond_hashA (r : Response) : (s.respond r).hashA = s.hashA := rfl
@[simp] theorem State.respond_hashB (r : Response) : (s.respond r).hashB = s.hashB := rfl
@[simp] theorem State.respond_bkt (r : Response) : (s.respond r).bkt = s.bkt := rfl
@[simp] theorem State.respond_loc (r : Response) : (s.respond r).loc = s.loc := rfl
@[simp] theorem State.respond_par (r : Response) : (s.respond r).par = s.par := rfl
@[simp] theorem State.respond_epoch (r : Response) : (s.respond r).epoch = s.epoch := rfl
@[simp] theorem State.respond_port (r : Response) : (s.respond r).port = s.port := rfl
@[simp] theorem State.respond_resp (r : Response) : (s.respond r).resp = some r := rfl

/-! ## fail -/

@[simp] theorem State.fail_configured (c : ErrCode) : (s.fail c).configured = s.configured := rfl
@[simp] theorem State.fail_result (c : ErrCode) : (s.fail c).result = s.result := rfl
@[simp] theorem State.fail_locValid (c : ErrCode) : (s.fail c).locValid = s.locValid := rfl
@[simp] theorem State.fail_w (c : ErrCode) : (s.fail c).w = s.w := rfl
@[simp] theorem State.fail_err (c : ErrCode) : (s.fail c).err = c := rfl
@[simp] theorem State.fail_m (c : ErrCode) : (s.fail c).m = s.m := rfl
@[simp] theorem State.fail_k (c : ErrCode) : (s.fail c).k = s.k := rfl
@[simp] theorem State.fail_numbits (c : ErrCode) : (s.fail c).numbits = s.numbits := rfl
@[simp] theorem State.fail_numhashes (c : ErrCode) : (s.fail c).numhashes = s.numhashes := rfl
@[simp] theorem State.fail_acc (c : ErrCode) : (s.fail c).acc = s.acc := rfl
@[simp] theorem State.fail_hashA (c : ErrCode) : (s.fail c).hashA = s.hashA := rfl
@[simp] theorem State.fail_hashB (c : ErrCode) : (s.fail c).hashB = s.hashB := rfl
@[simp] theorem State.fail_bkt (c : ErrCode) : (s.fail c).bkt = s.bkt := rfl
@[simp] theorem State.fail_loc (c : ErrCode) : (s.fail c).loc = s.loc := rfl
@[simp] theorem State.fail_par (c : ErrCode) : (s.fail c).par = s.par := rfl
@[simp] theorem State.fail_epoch (c : ErrCode) : (s.fail c).epoch = s.epoch := rfl
@[simp] theorem State.fail_port (c : ErrCode) : (s.fail c).port = s.port := rfl
@[simp] theorem State.fail_resp (c : ErrCode) : (s.fail c).resp = s.resp := rfl

/-! ## setBit -/

@[simp] theorem State.setBit_configured (l : Nat) : (s.setBit l).configured = s.configured := rfl
@[simp] theorem State.setBit_result (l : Nat) : (s.setBit l).result = s.result := rfl
@[simp] theorem State.setBit_locValid (l : Nat) : (s.setBit l).locValid = s.locValid := rfl
@[simp] theorem State.setBit_w (l : Nat) : (s.setBit l).w = s.w := rfl
@[simp] theorem State.setBit_err (l : Nat) : (s.setBit l).err = s.err := rfl
@[simp] theorem State.setBit_m (l : Nat) : (s.setBit l).m = s.m := rfl
@[simp] theorem State.setBit_k (l : Nat) : (s.setBit l).k = s.k := rfl
@[simp] theorem State.setBit_numbits (l : Nat) : (s.setBit l).numbits = s.numbits := rfl
@[simp] theorem State.setBit_numhashes (l : Nat) : (s.setBit l).numhashes = s.numhashes := rfl
@[simp] theorem State.setBit_acc (l : Nat) : (s.setBit l).acc = s.acc := rfl
@[simp] theorem State.setBit_hashA (l : Nat) : (s.setBit l).hashA = s.hashA := rfl
@[simp] theorem State.setBit_hashB (l : Nat) : (s.setBit l).hashB = s.hashB := rfl
@[simp] theorem State.setBit_bkt (l : Nat) : (s.setBit l).bkt = s.bkt.write s.freeBkt (l / 32) (s.bktWord (l / 32) ||| 1#32 <<< (l % 32)) := rfl
@[simp] theorem State.setBit_loc (l : Nat) : (s.setBit l).loc = s.loc := rfl
@[simp] theorem State.setBit_par (l : Nat) : (s.setBit l).par = s.par := rfl
@[simp] theorem State.setBit_epoch (l : Nat) : (s.setBit l).epoch = s.epoch := rfl
@[simp] theorem State.setBit_port (l : Nat) : (s.setBit l).port = s.port := rfl
@[simp] theorem State.setBit_resp (l : Nat) : (s.setBit l).resp = s.resp := rfl

/-! ## construct -/

@[simp] theorem State.construct_configured : (s.construct).configured = true := rfl
@[simp] theorem State.construct_result : (s.construct).result = false := rfl
@[simp] theorem State.construct_locValid : (s.construct).locValid = false := rfl
@[simp] theorem State.construct_w : (s.construct).w = locWidth (roundUp32 s.nb) := rfl
@[simp] theorem State.construct_err : (s.construct).err = s.err := rfl
@[simp] theorem State.construct_m : (s.construct).m = BitVec.ofNat 32 (roundUp32 s.nb) := rfl
@[simp] theorem State.construct_k : (s.construct).k = BitVec.ofNat 32 s.nh := rfl
@[simp] theorem State.construct_numbits : (s.construct).numbits = s.numbits := rfl
@[simp] theorem State.construct_numhashes : (s.construct).numhashes = s.numhashes := rfl
@[simp] theorem State.construct_acc : (s.construct).acc = s.par.hashInit := rfl
@[simp] theorem State.construct_hashA : (s.construct).hashA = 0 := rfl
@[simp] theorem State.construct_hashB : (s.construct).hashB = 0 := rfl
@[simp] theorem State.construct_bkt : (s.construct).bkt = s.bkt.zeroBelow (roundUp32 s.nb / 32) := rfl
@[simp] theorem State.construct_loc : (s.construct).loc = s.loc.zeroBelow s.nh := rfl
@[simp] theorem State.construct_par : (s.construct).par = s.par := rfl
@[simp] theorem State.construct_epoch : (s.construct).epoch = s.epoch := rfl
@[simp] theorem State.construct_port : (s.construct).port = s.port := rfl
@[simp] theorem State.construct_resp : (s.construct).resp = s.resp := rfl

/-! ## probe -/

@[simp] theorem State.probe_configured : (s.probe).configured = s.configured := rfl
@[simp] theorem State.probe_result : (s.probe).result = s.result := rfl
@[simp] theorem State.probe_locValid : (s.probe).locValid = true := rfl
@[simp] theorem State.probe_w : (s.probe).w = s.w := rfl
@[simp] theorem State.probe_err : (s.probe).err = s.err := rfl
@[simp] theorem State.probe_m : (s.probe).m = s.m := rfl
@[simp] theorem State.probe_k : (s.probe).k = s.k := rfl
@[simp] theorem State.probe_numbits : (s.probe).numbits = s.numbits := rfl
@[simp] theorem State.probe_numhashes : (s.probe).numhashes = s.numhashes := rfl
@[simp] theorem State.probe_acc : (s.probe).acc = s.par.hashInit := rfl
@[simp] theorem State.probe_hashA : (s.probe).hashA = s.acc := rfl
@[simp] theorem State.probe_hashB : (s.probe).hashB = rehash s.par s.acc := rfl
@[simp] theorem State.probe_bkt : (s.probe).bkt = s.bkt := rfl
@[simp] theorem State.probe_loc : (s.probe).loc = s.loc.writeFrom s.freeLoc 0 (s.positions.map (BitVec.ofInt 32)) := rfl
@[simp] theorem State.probe_par : (s.probe).par = s.par := rfl
@[simp] theorem State.probe_epoch : (s.probe).epoch = s.epoch := rfl
@[simp] theorem State.probe_port : (s.probe).port = s.port := rfl
@[simp] theorem State.probe_resp : (s.probe).resp = s.resp := rfl

/-! ## setBits -/

theorem State.setBits_eq (ls : List Nat) : s.setBits ls = { s with bkt := (s.setBits ls).bkt } := by
  induction ls generalizing s with
  | nil => rfl
  | cons l ls ih =>
    have h : s.setBits (l :: ls) = (s.setBit l).setBits ls := rfl
    rw [h, ih (s.setBit l)]
    rfl

@[simp] theorem State.setBits_configured (ls : List Nat) : (s.setBits ls).configured = s.configured := by rw [State.setBits_eq]
@[simp] theorem State.setBits_result (ls : List Nat) : (s.setBits ls).result = s.result := by rw [State.setBits_eq]
@[simp] theorem State.setBits_locValid (ls : List Nat) : (s.setBits ls).locValid = s.locValid := by rw [State.setBits_eq]
@[simp] theorem State.setBits_w (ls : List Nat) : (s.setBits ls).w = s.w := by rw [State.setBits_eq]
@[simp] theorem State.setBits_err (ls : List Nat) : (s.setBits ls).err = s.err := by rw [State.setBits_eq]
@[simp] theorem State.setBits_m (ls : List Nat) : (s.setBits ls).m = s.m := by rw [State.setBits_eq]
@[simp] theorem State.setBits_k (ls : List Nat) : (s.setBits ls).k = s.k := by rw [State.setBits_eq]
@[simp] theorem State.setBits_numbits (ls : List Nat) : (s.setBits ls).numbits = s.numbits := by rw [State.setBits_eq]
@[simp] theorem State.setBits_numhashes (ls : List Nat) : (s.setBits ls).numhashes = s.numhashes := by rw [State.setBits_eq]
@[simp] theorem State.setBits_acc (ls : List Nat) : (s.setBits ls).acc = s.acc := by rw [State.setBits_eq]
@[simp] theorem State.setBits_hashA (ls : List Nat) : (s.setBits ls).hashA = s.hashA := by rw [State.setBits_eq]
@[simp] theorem State.setBits_hashB (ls : List Nat) : (s.setBits ls).hashB = s.hashB := by rw [State.setBits_eq]
@[simp] theorem State.setBits_loc (ls : List Nat) : (s.setBits ls).loc = s.loc := by rw [State.setBits_eq]
@[simp] theorem State.setBits_par (ls : List Nat) : (s.setBits ls).par = s.par := by rw [State.setBits_eq]
@[simp] theorem State.setBits_epoch (ls : List Nat) : (s.setBits ls).epoch = s.epoch := by rw [State.setBits_eq]
@[simp] theorem State.setBits_port (ls : List Nat) : (s.setBits ls).port = s.port := by rw [State.setBits_eq]
@[simp] theorem State.setBits_resp (ls : List Nat) : (s.setBits ls).resp = s.resp := by rw [State.setBits_eq]

/-! ## the unspecified values depend on the number of resets and on M_MAX only -/

@[simp] theorem State.respond_freeBkt (r : Response) : (s.respond r).freeBkt = s.freeBkt := rfl
@[simp] theorem State.respond_freeLoc (r : Response) : (s.respond r).freeLoc = s.freeLoc := rfl
@[simp] theorem State.fail_freeBkt (c : ErrCode) : (s.fail c).freeBkt = s.freeBkt := rfl
@[simp] theorem State.fail_freeLoc (c : ErrCode) : (s.fail c).freeLoc = s.freeLoc := rfl
@[simp] theorem State.setBit_freeBkt (l : Nat) : (s.setBit l).freeBkt = s.freeBkt := rfl
@[simp] theorem State.setBit_freeLoc (l : Nat) : (s.setBit l).freeLoc = s.freeLoc := rfl
@[simp] theorem State.construct_freeBkt : (s.construct).freeBkt = s.freeBkt := rfl
@[simp] theorem State.construct_freeLoc : (s.construct).freeLoc = s.freeLoc := rfl
@[simp] theorem State.probe_freeBkt : (s.probe).freeBkt = s.freeBkt := rfl
@[simp] theorem State.probe_freeLoc : (s.probe).freeLoc = s.freeLoc := rfl
@[simp] theorem State.setBits_freeBkt (ls : List Nat) : (s.setBits ls).freeBkt = s.freeBkt := by rw [State.setBits_eq]; rfl
@[simp] theorem State.setBits_freeLoc (ls : List Nat) : (s.setBits ls).freeLoc = s.freeLoc := by rw [State.setBits_eq]; rfl

/-! ## the words after an update -/

@[simp] theorem State.respond_bktWord (r : Response) (j : Nat) : (s.respond r).bktWord j = s.bktWord j := rfl
@[simp] theorem State.respond_locWord (r : Response) (i : Nat) : (s.respond r).locWord i = s.locWord i := rfl
@[simp] theorem State.fail_bktWord (c : ErrCode) (j : Nat) : (s.fail c).bktWord j = s.bktWord j := rfl
@[simp] theorem State.fail_locWord (c : ErrCode) (i : Nat) : (s.fail c).locWord i = s.locWord i := rfl
@[simp] theorem State.probe_bktWord (j : Nat) : s.probe.bktWord j = s.bktWord j := rfl
@[simp] theorem State.setBit_locWord (l i : Nat) : (s.setBit l).locWord i = s.locWord i := rfl
@[simp] theorem State.setBits_locWord (ls : List Nat) (i : Nat) : (s.setBits ls).locWord i = s.locWord i := by
  rw [State.setBits_eq]; rfl

end Sys2Proof.Machine
end

