-- ==== Sys2Proof/Laws/Filter.lean ====
section
/-! SUPPORT. What `probe`, the loops of ADD and TEST, and CONFIG's construction do to the words and bits they touch. -/

namespace Sys2Proof.Machine

variable {s : State}

/-! ## Bits -/

theorem getLsbD_one_shiftLeft {a b : Nat} (hb : b < 32) : (1#32 <<< a).getLsbD b = decide (b = a) := by
  rw [BitVec.getLsbD_shiftLeft, BitVec.getLsbD_one]
  grind

theorem getLsbD_and_one_shiftLeft_eq_zero {v : Word} {a : Nat} (ha : a < 32) :
    (v &&& 1#32 <<< a = 0) ↔ v.getLsbD a = false := by
  constructor
  · intro h
    have := congrArg (·.getLsbD a) h
    simpa [getLsbD_one_shiftLeft ha] using this
  · intro h
    apply BitVec.eq_of_getLsbD_eq
    intro i hi
    rw [BitVec.getLsbD_and, getLsbD_one_shiftLeft hi]
    by_cases e : i = a <;> simp_all

theorem State.setBit_bktWord (l j : Nat) :
    (s.setBit l).bktWord j = if j = l / 32 then s.bktWord j ||| 1#32 <<< (l % 32) else s.bktWord j := by
  unfold State.bktWord
  rw [State.setBit_freeBkt, State.setBit_bkt, Memory.read_write]
  split
  · rename_i h; subst h; rfl
  · rfl

theorem State.setBit_filterBit (l x : Nat) : (s.setBit l).filterBit x = (s.filterBit x || decide (x = l)) := by
  unfold State.filterBit
  rw [State.setBit_bktWord]
  have hx : x % 32 < 32 := Nat.mod_lt _ (by decide)
  split
  · rename_i h
    rw [BitVec.getLsbD_or, getLsbD_one_shiftLeft hx]
    congr 1
    rw [decide_eq_decide]
    omega
  · rename_i h
    have : x ≠ l := fun e => h (by rw [e])
    simp [this]

/-- ADD's loop: a bit is set after it when it was set before or its position is in the list. -/
theorem State.setBits_filterBit (ls : List Nat) (x : Nat) :
    (s.setBits ls).filterBit x = (s.filterBit x || decide (x ∈ ls)) := by
  induction ls generalizing s with
  | nil => simp [State.setBits]
  | cons l ls ih =>
    have h : s.setBits (l :: ls) = (s.setBit l).setBits ls := rfl
    rw [h, ih, State.setBit_filterBit]
    by_cases e : x = l <;> simp [e]

/-- TEST's loop: it answers whether every position of the list is set. -/
theorem State.allSet_eq (ls : List Nat) : s.allSet ls = decide (∀ l ∈ ls, s.filterBit l = true) := by
  induction ls with
  | nil => simp [State.allSet]
  | cons l ls ih =>
    have hl : l % 32 < 32 := Nat.mod_lt _ (by decide)
    unfold State.allSet
    rw [ih]
    split
    · rename_i h
      rw [getLsbD_and_one_shiftLeft_eq_zero hl] at h
      have : s.filterBit l = false := h
      simp [this]
    · rename_i h
      rw [getLsbD_and_one_shiftLeft_eq_zero hl, Bool.not_eq_false] at h
      have : s.filterBit l = true := h
      simp [this]

/-- Two filters with the same words have the same bits, and conversely. -/
theorem bktWord_eq_of_filterBit_eq {t : State} (h : ∀ l, s.filterBit l = t.filterBit l) (j : Nat) :
    s.bktWord j = t.bktWord j := by
  apply BitVec.eq_of_getLsbD_eq
  intro i hi
  have := h (32 * j + i)
  unfold State.filterBit at this
  rwa [show (32 * j + i) / 32 = j by omega, show (32 * j + i) % 32 = i by omega] at this

/-! ## The storage keeps its form -/

@[simp] theorem State.setBits_zeroed (ls : List Nat) : (s.setBits ls).bkt.zeroed = s.bkt.zeroed := by
  induction ls generalizing s with
  | nil => rfl
  | cons l ls ih =>
    have h : s.setBits (l :: ls) = (s.setBit l).setBits ls := rfl
    rw [h, ih]; simp

theorem State.setBits_wf (ls : List Nat) (h : s.bkt.wf s.freeBkt) : (s.setBits ls).bkt.wf s.freeBkt := by
  induction ls generalizing s with
  | nil => exact h
  | cons l ls ih => exact ih (s := s.setBit l) (Memory.wf_write h)

theorem State.mem_setBits {ls : List Nat} {c : Nat × Word} (h : c ∈ (s.setBits ls).bkt.cells) :
    (∃ l ∈ ls, c.1 = l / 32) ∨ c ∈ s.bkt.cells := by
  induction ls generalizing s with
  | nil => exact .inr h
  | cons l ls ih =>
    rcases ih (s := s.setBit l) h with ⟨x, hx, e⟩ | h
    · exact .inl ⟨x, List.mem_cons_of_mem _ hx, e⟩
    · rcases Memory.mem_write h with e | h
      · exact .inl ⟨l, List.mem_cons_self, by rw [e]⟩
      · exact .inr h

/-! ## probe -/

@[simp] theorem State.positions_length : s.positions.length = s.k.toNat := probePositions_length

theorem State.positions_range (hm : 0 < s.m.toNat) {x : Int} (h : x ∈ s.positions) : 0 ≤ x ∧ x < s.m.toNat :=
  probePositions_range (by omega) h

theorem toNat_ofInt_of_range {x : Int} (h0 : 0 ≤ x) (h1 : x < 2 ^ 32) : (BitVec.ofInt 32 x).toNat = x.toNat := by
  rw [BitVec.toNat_ofInt, Int.emod_eq_of_lt h0 (by simpa using h1)]

theorem State.probe_locWord_at {i : Nat} (hi : i < s.k.toNat) :
    s.probe.locWord i = BitVec.ofInt 32 (s.positions[i]'(by simpa using hi)) := by
  unfold State.locWord
  rw [State.probe_freeLoc, State.probe_loc, Memory.read_writeFrom]
  simp [hi]

theorem State.probe_locWord_above {i : Nat} (hi : s.k.toNat ≤ i) : s.probe.locWord i = s.locWord i := by
  unfold State.locWord
  rw [State.probe_freeLoc, State.probe_loc, Memory.read_writeFrom]
  simp [Nat.not_lt.2 hi]

/-- What LOC holds after a probe: the closed form of R446. -/
theorem State.probe_locWord_toNat (hm : 0 < s.m.toNat) {i : Nat} (hi : i < s.k.toNat) :
    ((s.probe.locWord i).toNat : Int)
      = (sint32 s.acc + i * sint32 (rehash s.par s.acc)) % (s.m.toNat : Int) := by
  have hm' : (0 : Int) < s.m.toNat := by omega
  have hr := State.positions_range hm (List.getElem_mem (l := s.positions) (n := i) (by simpa using hi))
  have hlt := s.m.isLt
  rw [State.probe_locWord_at hi, toNat_ofInt_of_range hr.1 (by omega), Int.toNat_of_nonneg hr.1]
  exact probePositions_getElem hm' hi

/-- The positions ADD and TEST take are those computed. -/
theorem State.probe_locations (hm : 0 < s.m.toNat) : s.probe.locations = s.positions.map Int.toNat := by
  apply List.ext_getElem (by simp [State.locations])
  intro i h1 h2
  have hi : i < s.k.toNat := by simpa [State.locations] using h1
  have hr := State.positions_range hm (List.getElem_mem (l := s.positions) (n := i) (by simpa using hi))
  have hlt := s.m.isLt
  simp only [State.locations, List.getElem_map, List.getElem_range]
  rw [State.probe_locWord_at hi, toNat_ofInt_of_range hr.1 (by omega)]

theorem State.probe_locations_lt (hm : 0 < s.m.toNat) {l : Nat} (h : l ∈ s.probe.locations) : l < s.m.toNat := by
  rw [State.probe_locations hm] at h
  obtain ⟨x, hx, rfl⟩ := List.mem_map.1 h
  have := State.positions_range hm hx
  omega

/-- The positions of a key depend on the key's hash, `M`, `K` and the parameters only (R448 (g)). -/
theorem State.positions_congr {t : State} (ha : s.acc = t.acc) (hp : s.par = t.par) (hm : s.m = t.m) (hk : s.k = t.k) :
    s.positions = t.positions := by
  unfold State.positions; rw [ha, hp, hm, hk]

/-! ## CONFIG -/

theorem State.construct_bktWord (j : Nat) :
    s.construct.bktWord j = if j < roundUp32 s.nb / 32 then 0 else s.bktWord j := by
  unfold State.bktWord
  rw [State.construct_freeBkt, State.construct_bkt, Memory.read_zeroBelow]

theorem State.construct_locWord (i : Nat) : s.construct.locWord i = if i < s.nh then 0 else s.locWord i := by
  unfold State.locWord
  rw [State.construct_freeLoc, State.construct_loc, Memory.read_zeroBelow]

theorem roundUp32_spec (n : Nat) : roundUp32 n % 32 = 0 ∧ n ≤ roundUp32 n ∧ roundUp32 n < n + 32 := by
  unfold roundUp32; omega

end Sys2Proof.Machine
end

