-- ==== Sys2Proof/Laws/Exec.lean ====
section
/-! SUPPORT. Once for each meaning and for a step: everything it can do. -/

namespace Sys2Proof.Machine

variable {s t : State} {i : Instr} {e : Event} {rest : List Event}

theorem execConfig_valid (h : ¬ s.configInvalid) : exec .config s = .next ({ s.construct with err := .ok }.respond .ok) :=
  if_neg h

theorem execConfig_invalid (h : s.configInvalid) : exec .config s = .next ((s.fail .invalidConfig).respond .ok) :=
  if_pos h

theorem execAdd_configured (h : s.configured = true) :
    exec .add s = .next ({ s.probe.setBits s.probe.locations with err := .ok }.respond .ok) := if_pos h

theorem execAdd_unconfigured (h : s.configured = false) :
    exec .add s = .next ((s.fail .notConfigured).respond .ok) := if_neg (by simp [h])

theorem execTest_configured (h : s.configured = true) :
    exec .test s = .next ({ s.probe with result := s.probe.allSet s.probe.locations, err := .ok }.respond .ok) := if_pos h

theorem execTest_unconfigured (h : s.configured = false) :
    exec .test s = .next ((s.fail .notConfigured).respond .ok) := if_neg (by simp [h])

/-- Everything an instruction can do: nine kinds of next state, and nothing else. -/
theorem exec_cases (h : exec i s = .next t) :
    (∃ r, t = s.respond r)
    ∨ (∃ c, t = (s.fail c).respond .ok)
    ∨ (∃ n, i = .wrNumbits n ∧ t = { s with numbits := n }.respond .ok)
    ∨ (∃ n, i = .wrNumhashes n ∧ t = { s with numhashes := n }.respond .ok)
    ∨ (∃ b, i = .kb b ∧ t = { s with acc := hashStep s.par s.acc b }.respond .ok)
    ∨ (i = .keyreset ∧ t = { s with acc := s.par.hashInit, err := .ok }.respond .ok)
    ∨ (i = .config ∧ ¬ s.configInvalid ∧ t = { s.construct with err := .ok }.respond .ok)
    ∨ (i = .add ∧ s.configured = true ∧ t = { s.probe.setBits s.probe.locations with err := .ok }.respond .ok)
    ∨ (i = .test ∧ s.configured = true
        ∧ t = { s.probe with result := s.probe.allSet s.probe.locations, err := .ok }.respond .ok) := by
  cases i with
  | config =>
    by_cases hc : s.configInvalid
    · rw [execConfig_invalid hc] at h; cases h; exact .inr (.inl ⟨_, rfl⟩)
    · rw [execConfig_valid hc] at h; cases h; simp [hc]
  | add =>
    by_cases hc : s.configured = true
    · rw [execAdd_configured hc] at h; cases h; simp [hc]
    · rw [execAdd_unconfigured (by simpa using hc)] at h; cases h; exact .inr (.inl ⟨_, rfl⟩)
  | test =>
    by_cases hc : s.configured = true
    · rw [execTest_configured hc] at h; cases h; simp [hc]
    · rw [execTest_unconfigured (by simpa using hc)] at h; cases h; exact .inr (.inl ⟨_, rfl⟩)
  | keyreset => cases h; simp
  | kb b => cases h; simp
  | wrNumbits n => cases h; simp
  | wrNumhashes n => cases h; simp
  | rdLoc n => simp only [exec, execRdLoc] at h; split at h <;> cases h <;> exact .inl ⟨_, rfl⟩
  | rdBkt n => simp only [exec, execRdBkt] at h; split at h <;> cases h <;> exact .inl ⟨_, rfl⟩
  | _ => cases h; exact .inl ⟨_, rfl⟩

/-! ## A step, by the event it performs -/

theorem step_idle (h : s.port = []) : step s = .next s := by simp [step, State.nextEvent, h]

theorem step_reset {a : Option Txn} (h : s.port = .reset a :: rest) :
    step s = .next (takeReset { s with port := rest }) := by simp [step, State.nextEvent, h]

theorem step_instr {x : Txn} (h : s.port = .txn x :: rest) (hd : decode x = .instr i) :
    step s = exec i { s with port := rest } := by simp [step, State.nextEvent, h, hd]

theorem step_busError {x : Txn} {c : BusCause} (h : s.port = .txn x :: rest) (hd : decode x = .busError c) :
    step s = .next ({ s with port := rest }.respond .error) := by simp [step, State.nextEvent, h, hd, busError]

theorem step_illegal {x : Txn} {c : IllegalCause} (h : s.port = .txn x :: rest) (hd : decode x = .illegalCommand c) :
    step s = .next (({ s with port := rest }.fail .illegalCmd).respond .ok) := by
  simp [step, State.nextEvent, h, hd, illegalCommand, commandError]

/-- Everything a step can do. -/
theorem step_cases (h : step s = .next t) :
    (s.port = [] ∧ t = s)
    ∨ (∃ a rest, s.port = .reset a :: rest ∧ t = takeReset { s with port := rest })
    ∨ (∃ x rest i, s.port = .txn x :: rest ∧ decode x = .instr i ∧ exec i { s with port := rest } = .next t)
    ∨ (∃ x rest c, s.port = .txn x :: rest ∧ decode x = .busError c ∧ t = { s with port := rest }.respond .error)
    ∨ (∃ x rest c, s.port = .txn x :: rest ∧ decode x = .illegalCommand c
        ∧ t = ({ s with port := rest }.fail .illegalCmd).respond .ok) := by
  rcases hp : s.port with _ | ⟨e, rest⟩
  · rw [step_idle hp] at h; cases h; exact .inl ⟨rfl, rfl⟩
  · refine .inr ?_
    cases e with
    | reset a => rw [step_reset hp] at h; cases h; exact .inl ⟨a, rest, rfl, rfl⟩
    | txn x =>
      refine .inr ?_
      cases hd : decode x with
      | instr i => rw [step_instr hp hd] at h; exact .inl ⟨x, rest, i, rfl, hd, h⟩
      | busError c => rw [step_busError hp hd] at h; cases h; exact .inr (.inl ⟨x, rest, c, rfl, hd, rfl⟩)
      | illegalCommand c => rw [step_illegal hp hd] at h; cases h; exact .inr (.inr ⟨x, rest, c, rfl, hd, rfl⟩)

end Sys2Proof.Machine
end

