-- ==== Sys2Proof/Laws/PerInstr.lean ====
section
/-! SUPPORT. For each instruction: its transaction is one its row of spec/opcode_table.json describes, as an aligned
whole-word access (R208 of spec/20_memory.md, R305 and R308 of spec/30_encoding.md). -/

namespace Sys2Proof.Laws.EncodesRow

/-- The transaction of a well-formed instruction fits the instruction's row of the opcode table, and is an aligned
whole-word access. -/
def Statement (i : Instr) : Prop :=
  i.wellFormed = true →
    i.row.describes (encode i) = true ∧ (encode i).size = 4 ∧ (encode i).byteEnables = 0b1111#4 ∧
      (encode i).addr.toNat % 4 = 0

theorem config : Statement .config := fun _ => by decide
theorem add : Statement .add := fun _ => by decide
theorem test : Statement .test := fun _ => by decide
theorem keyreset : Statement .keyreset := fun _ => by decide
theorem kb (b : Byte) : Statement (.kb b) := fun _ => by
  simp [encode, Txn.wordWrite, Instr.row, TableRow.describes, TableRow.fits]
theorem wrNumbits (n : Word) : Statement (.wrNumbits n) := fun _ => by
  simp [encode, Txn.wordWrite, Instr.row, TableRow.describes, TableRow.fits]
theorem wrNumhashes (n : Word) : Statement (.wrNumhashes n) := fun _ => by
  simp [encode, Txn.wordWrite, Instr.row, TableRow.describes, TableRow.fits]
theorem rdId : Statement .rdId := fun _ => by decide
theorem rdMmax : Statement .rdMmax := fun _ => by decide
theorem rdKmax : Statement .rdKmax := fun _ => by decide
theorem rdNumbits : Statement .rdNumbits := fun _ => by decide
theorem rdNumhashes : Statement .rdNumhashes := fun _ => by decide
theorem rdM : Statement .rdM := fun _ => by decide
theorem rdK : Statement .rdK := fun _ => by decide
theorem rdStatus : Statement .rdStatus := fun _ => by decide
theorem rdAcc : Statement .rdAcc := fun _ => by decide
theorem rdHashA : Statement .rdHashA := fun _ => by decide
theorem rdHashB : Statement .rdHashB := fun _ => by decide

/-- A mask of the bits from `k` up keeps what division by `2^k` keeps. -/
theorem and_high_mask (w : Word) (k : Nat) :
    w &&& (BitVec.allOnes 32 <<< k) = (w >>> k) <<< k := by
  apply BitVec.eq_of_getLsbD_eq
  intro j hj
  simp only [BitVec.getLsbD_and, BitVec.getLsbD_shiftLeft, BitVec.getLsbD_allOnes, BitVec.getLsbD_ushiftRight]
  by_cases h : j < k
  · simp [h]
  · have h1 : k + (j - k) = j := by omega
    have h2 : j - k < 32 := by omega
    simp [h, hj, h1, h2]

theorem rdLoc (n : Nat) : Statement (.rdLoc n) := fun h => by
  have h : n < 1024 := by simpa [Instr.wellFormed, locWindowWords] using h
  have ha : (BitVec.ofNat 32 (4096 + 4 * n)).toNat = 4096 + 4 * n := by
    rw [BitVec.toNat_ofNat]; omega
  refine ⟨?_, rfl, rfl, ?_⟩
  · show decide (BitVec.ofNat 32 (4096 + 4 * n) &&& (BitVec.allOnes 32 <<< 12) = 0x00001000#32) = true
    rw [and_high_mask, decide_eq_true_iff]
    apply BitVec.eq_of_toNat_eq
    rw [BitVec.toNat_shiftLeft, BitVec.toNat_ushiftRight, ha, Nat.shiftRight_eq_div_pow, Nat.shiftLeft_eq,
      show (4096 + 4 * n) / 2 ^ 12 = 1 by omega]
    rfl
  · show (BitVec.ofNat 32 (4096 + 4 * n)).toNat % 4 = 0
    omega

theorem rdBkt (n : Nat) : Statement (.rdBkt n) := fun h => by
  have h : n < 67108864 := by simpa [Instr.wellFormed, bktWindowWords] using h
  have ha : (BitVec.ofNat 32 (268435456 + 4 * n)).toNat = 268435456 + 4 * n := by
    rw [BitVec.toNat_ofNat]; omega
  refine ⟨?_, rfl, rfl, ?_⟩
  · show decide (BitVec.ofNat 32 (268435456 + 4 * n) &&& (BitVec.allOnes 32 <<< 28) = 0x10000000#32) = true
    rw [and_high_mask, decide_eq_true_iff]
    apply BitVec.eq_of_toNat_eq
    rw [BitVec.toNat_shiftLeft, BitVec.toNat_ushiftRight, ha, Nat.shiftRight_eq_div_pow, Nat.shiftLeft_eq,
      show (268435456 + 4 * n) / 2 ^ 28 = 1 by omega]
    rfl
  · show (BitVec.ofNat 32 (268435456 + 4 * n)).toNat % 4 = 0
    omega

end Sys2Proof.Laws.EncodesRow
end

