-- ==== Sys2Proof/Tests/Slice0.lean ====
section
/-! SUPPORT. Tests of the model's own work, with results taken from spec/ (each says where from), and, for each statement of
Certificates/Slice0/Obligations.lean that has hypotheses, a concrete state and operands that meet all of them. -/

namespace Sys2Proof.Tests

open Sys2Proof.Machine

/-! ## Small states -/

/-- The next state of an outcome. -/
def nextOf (o : Host.Outcome State Fault Refusal) : Option State :=
  match o with
  | .next t => some t
  | .fault _ => none
  | .refused _ => none

/-- The bytes of the keys of spec/95_test_vectors.md. -/
def apple : List Byte := [0x61, 0x70, 0x70, 0x6C, 0x65]
def banana : List Byte := [0x62, 0x61, 0x6E, 0x61, 0x6E, 0x61]
def eg : List Byte := [0x65, 0x67]
def eAcute : List Byte := [0xC3, 0xA9]

/-- Reset, then requests for a filter. -/
def requested (nb nh : Word) : State := { State.reset with numbits := nb, numhashes := nh }

/-- A new filter of 32 bits and 3 probes. -/
def filter32 : State :=
  { requested 32 3 with configured := true, w := .one, m := 32, k := 3, bkt := ⟨[], 1⟩, loc := ⟨[], 3⟩ }

/-- A new filter of 320 bits and 4 probes. -/
def filter320 : State :=
  { requested 320 4 with configured := true, w := .two, m := 320, k := 4, bkt := ⟨[], 10⟩, loc := ⟨[], 4⟩ }

/-- A state that has absorbed a key. -/
def absorbed (v : List Byte) (s : State) : State := { s with acc := hashOf s.par v }

/-- `filter32` with "apple" added: bits 9, 14 and 19 (95_test_vectors.md, 3.5). -/
def apple32 : State :=
  { filter32 with
    bkt := ⟨[(0, 0x00084200#32)], 1⟩, loc := ⟨[(0, 9#32), (1, 14#32), (2, 19#32)], 3⟩, locValid := true,
    hashA := 0x04D95EA9#32, hashB := 0x9FCC99C5#32 }

/-- `filter320` with "apple" added: the state of 95_test_vectors.md, 3.7. -/
def apple320 : State :=
  { filter320 with
    bkt := ⟨[(1, 0x00004000#32), (3, 0x01000000#32), (5, 0x00000200#32), (7, 0x00080000#32)], 10⟩
    loc := ⟨[(0, 169#32), (1, 46#32), (2, 243#32), (3, 120#32)], 4⟩, locValid := true
    hashA := 0x04D95EA9#32, hashB := 0x9FCC99C5#32 }

/-- A state with one event at its port. -/
def withEvent (e : Event) (s : State) : State := { s with port := [e] }

/-- Run one transaction and show the response and STATUS. -/
def shown (t : Txn) (s : State) : Option (Option Response × Word) :=
  (nextOf (step (withEvent (.txn t) s))).map fun u => (u.resp, u.statusWord)

/-- A transaction is answered with ERROR and nothing else changes. -/
def rejected (t : Txn) (s : State) : Bool :=
  decide (nextOf (step (withEvent (.txn t) s)) = some { s with resp := some .error })

/-! ## WellFormed refuses ill-formed terms -/

theorem test_rdLoc_past_its_window_is_ill_formed : (Instr.rdLoc 1024).wellFormed = false := by decide
theorem test_rdBkt_past_its_window_is_ill_formed : (Instr.rdBkt 67108864).wellFormed = false := by decide

/-! ## Decoding, by words written out from R110, R202, R301 to R305 -/

theorem test_command_words :
    decode ⟨.write 0x00000001#32, 0x00000020#32, 4, 0b1111#4, 0⟩ = .instr .config ∧
    decode ⟨.write 0x00000002#32, 0x00000020#32, 4, 0b1111#4, 0⟩ = .instr .add ∧
    decode ⟨.write 0x00000003#32, 0x00000020#32, 4, 0b1111#4, 0⟩ = .instr .test ∧
    decode ⟨.write 0x00000004#32, 0x00000020#32, 4, 0b1111#4, 0⟩ = .instr .keyreset := by decide

theorem test_operand_words :
    decode ⟨.write 0x00000161#32, 0x00000024#32, 4, 0b1111#4, 0⟩ = .instr (.kb 0x61) ∧
    decode ⟨.write 0xFFFFFFFF#32, 0x0000000C#32, 4, 0b1111#4, 0⟩ = .instr (.wrNumbits 0xFFFFFFFF#32) ∧
    decode ⟨.write 0x00000004#32, 0x00000010#32, 4, 0b1111#4, 0⟩ = .instr (.wrNumhashes 4#32) := by decide

theorem test_register_reads :
    decode ⟨.read, 0x00000000#32, 4, 0b1111#4, 0⟩ = .instr .rdId ∧
    decode ⟨.read, 0x00000004#32, 4, 0b1111#4, 0⟩ = .instr .rdMmax ∧
    decode ⟨.read, 0x00000008#32, 4, 0b1111#4, 0⟩ = .instr .rdKmax ∧
    decode ⟨.read, 0x0000000C#32, 4, 0b1111#4, 0⟩ = .instr .rdNumbits ∧
    decode ⟨.read, 0x00000010#32, 4, 0b1111#4, 0⟩ = .instr .rdNumhashes ∧
    decode ⟨.read, 0x00000014#32, 4, 0b1111#4, 0⟩ = .instr .rdM ∧
    decode ⟨.read, 0x00000018#32, 4, 0b1111#4, 0⟩ = .instr .rdK ∧
    decode ⟨.read, 0x0000001C#32, 4, 0b1111#4, 0⟩ = .instr .rdStatus ∧
    decode ⟨.read, 0x00000028#32, 4, 0b1111#4, 0⟩ = .instr .rdAcc ∧
    decode ⟨.read, 0x0000002C#32, 4, 0b1111#4, 0⟩ = .instr .rdHashA ∧
    decode ⟨.read, 0x00000030#32, 4, 0b1111#4, 0⟩ = .instr .rdHashB := by decide

theorem test_window_reads_at_their_ends :
    decode ⟨.read, 0x00001000#32, 4, 0b1111#4, 0⟩ = .instr (.rdLoc 0) ∧
    decode ⟨.read, 0x00001FFC#32, 4, 0b1111#4, 0⟩ = .instr (.rdLoc 1023) ∧
    decode ⟨.read, 0x10000000#32, 4, 0b1111#4, 0⟩ = .instr (.rdBkt 0) ∧
    decode ⟨.read, 0x1FFFFFFC#32, 4, 0b1111#4, 0⟩ = .instr (.rdBkt 67108863) := by decide

/-- R304: RSVD is looked at before OPC. -/
theorem test_illegal_command_words :
    decode ⟨.write 0x00000102#32, 0x00000020#32, 4, 0b1111#4, 0⟩ = .illegalCommand .reservedBits ∧
    decode ⟨.write 0x80000002#32, 0x00000020#32, 4, 0b1111#4, 0⟩ = .illegalCommand .reservedBits ∧
    decode ⟨.write 0x00000000#32, 0x00000020#32, 4, 0b1111#4, 0⟩ = .illegalCommand .opcode ∧
    decode ⟨.write 0x000000FF#32, 0x00000020#32, 4, 0b1111#4, 0⟩ = .illegalCommand .opcode := by decide

/-- 17 of the 20 words of spec/opcode_table.json give their row's instruction ... -/
theorem test_table_words :
    decodeTableWord 32 0x1 = some .config ∧ decodeTableWord 32 0x2 = some .add ∧ decodeTableWord 32 0x3 = some .test ∧
    decodeTableWord 32 0x24 = some (.kb 0) ∧ decodeTableWord 32 0x0 = some .rdId ∧
    decodeTableWord 32 0x8 = some .rdKmax ∧ decodeTableWord 32 0x1C = some .rdStatus ∧
    decodeTableWord 32 0x100C = some (.rdLoc 3) ∧ decodeTableWord 32 0x10000028 = some (.rdBkt 10) := by decide

/-- ... and three words fit two rows each, so the first row of the table wins (log entry 9). -/
theorem test_shared_table_words :
    decodeTableWord 32 0x4 = some .keyreset ∧ decodeTableWord 32 0xC = some (.wrNumbits 0) ∧
    decodeTableWord 32 0x10 = some (.wrNumhashes 0) := by decide

theorem test_withFetchWord_runs_that_word :
    nextOf (step (State.reset.withFetchWord 32 0x2C)) = some { State.reset with resp := some (.okData 0#32) } := by decide

/-! ## Hashing (95_test_vectors.md, 2 and 3.1) -/

theorem test_kb_is_fnv_step_with_an_add :
    nextOf (exec (.kb 0x70) { State.reset with acc := 0x050C5D80#32 })
      = some { State.reset with acc := 0x727730F0#32, resp := some .ok } := by decide

theorem test_hash_of_two_byte_character : hashOf defaultParams eAcute = 0xD477CB6F#32 := by decide

theorem test_rehash_is_least_significant_byte_first :
    hashStep defaultParams defaultHashInit 0x6F = 0x050C5D8E#32 ∧ rehash defaultParams 0xD477CB6F#32 = 0x2C958006#32 := by
  decide

theorem test_keyreset_clears_err :
    nextOf (exec .keyreset { State.reset with acc := 0x050C5D80#32, err := .illegalCmd })
      = some { State.reset with resp := some .ok } := by decide

/-! ## CONFIG (95_test_vectors.md, 3.2) and its operands (R420, R421) -/

theorem test_operand_writes :
    nextOf (exec (.wrNumbits 0xFFFFFFFF#32) State.reset)
      = some { State.reset with numbits := 0xFFFFFFFF#32, resp := some .ok } ∧
    nextOf (exec (.wrNumhashes 9#32) filter32) = some { filter32 with numhashes := 9#32, resp := some .ok } := by decide

/-- `M`, `K` and STATUS after CONFIG from reset. -/
def configured (nb nh : Word) : Option (Nat × Nat × Word) :=
  (nextOf (exec .config (requested nb nh))).map fun t => (t.m.toNat, t.k.toNat, t.statusWord)

theorem test_config_rounds_up :
    configured 1 1 = some (32, 1, 0x11#32) ∧ configured 33 3 = some (64, 3, 0x11#32) ∧
    configured 256 4 = some (256, 4, 0x11#32) ∧ configured 257 4 = some (288, 4, 0x21#32) ∧
    configured 65536 4 = some (65536, 4, 0x21#32) ∧ configured 65537 4 = some (65568, 4, 0x41#32) ∧
    configured 131041 8 = some (131072, 8, 0x41#32) := by decide

theorem test_config_fails :
    configured 131073 3 = some (0, 0, 0x200#32) ∧ configured 0 3 = some (0, 0, 0x200#32) ∧
    configured 100 0 = some (0, 0, 0x200#32) ∧ configured 100 9 = some (0, 0, 0x200#32) ∧
    configured 0xFFFFFFFF#32 3 = some (0, 0, 0x200#32) := by decide

/-! ## Probe positions (95_test_vectors.md, 3.3 and 3.4) -/

theorem test_positions_correct_at_the_store_only :
    probePositions (-2128831035) 514010310 320 4 = [5, 75, 145, 215] ∧
    probePositions (-730346641) 747995142 320 4 = [239, 181, 123, 65] ∧
    probePositions 84696448 (-1714018909) 128 3 = [0, 35, 70] := by decide

theorem test_positions_exact_sum :
    probePositions 81354409 (-1613981243) 1610612736 4 = [81354409, 77985902, 74617395, 71248888] ∧
    probePositions (-2128831035) 514010310 2147483648 4 = [18652613, 532662923, 1046673233, 1560683543] := by decide

/-! ## ADD, TEST and the export image (95_test_vectors.md, 1.7, 3.5 and 3.6) -/

theorem test_add_apple :
    nextOf (exec .add (absorbed apple filter320)) = some { apple320 with resp := some .ok } := by decide

theorem test_export_of_apple :
    apple320.exportImage =
      [0x00, 0x00, 0x00, 0x00, 0x00, 0x40, 0x00, 0x00, 0x00, 0x00, 0x00, 0x00, 0x00, 0x00, 0x00, 0x01, 0x00, 0x00, 0x00, 0x00]
      ++ [0x00, 0x02, 0x00, 0x00, 0x00, 0x00, 0x00, 0x00, 0x00, 0x00, 0x08, 0x00, 0x00, 0x00, 0x00, 0x00, 0x00, 0x00, 0x00,
        0x00] := by decide

/-- `RESULT` after a TEST, and STATUS. -/
def tested (v : List Byte) (s : State) : Option (Bool × Word) :=
  (nextOf (exec .test (absorbed v s))).map fun t => (t.result, t.statusWord)

theorem test_test_answers :
    tested apple apple320 = some (true, 0x27#32) ∧ tested banana apple320 = some (false, 0x25#32) := by decide

theorem test_test_false_positive :
    tested eg apple32 = some (true, 0x17#32) ∧ tested [0x78] apple32 = some (false, 0x15#32) := by decide

/-! ## Reads (95_test_vectors.md, 3.7) -/

theorem test_reads :
    shown (.wordRead 0x000#32) apple320 = some (some (.okData 0x42464531#32), 0x25#32) ∧
    shown (.wordRead 0x004#32) apple320 = some (some (.okData 0x00020000#32), 0x25#32) ∧
    shown (.wordRead 0x008#32) apple320 = some (some (.okData 8#32), 0x25#32) ∧
    shown (.wordRead 0x00C#32) apple320 = some (some (.okData 0x140#32), 0x25#32) ∧
    shown (.wordRead 0x010#32) apple320 = some (some (.okData 4#32), 0x25#32) ∧
    shown (.wordRead 0x014#32) apple320 = some (some (.okData 0x140#32), 0x25#32) ∧
    shown (.wordRead 0x018#32) apple320 = some (some (.okData 4#32), 0x25#32) ∧
    shown (.wordRead 0x01C#32) apple320 = some (some (.okData 0x25#32), 0x25#32) := by decide

theorem test_more_reads :
    shown (.wordRead 0x028#32) apple320 = some (some (.okData 0x811C9DC5#32), 0x25#32) ∧
    shown (.wordRead 0x02C#32) apple320 = some (some (.okData 0x04D95EA9#32), 0x25#32) ∧
    shown (.wordRead 0x030#32) apple320 = some (some (.okData 0x9FCC99C5#32), 0x25#32) ∧
    shown (.wordRead 0x100C#32) apple320 = some (some (.okData 0x78#32), 0x25#32) ∧
    shown (.wordRead 0x10000004#32) apple320 = some (some (.okData 0x4000#32), 0x25#32) ∧
    shown (.wordRead 0x10000024#32) apple320 = some (some (.okData 0#32), 0x25#32) := by decide

theorem test_bus_errors_of_reads :
    rejected (.wordRead 0x1010#32) apple320 = true ∧ rejected (.wordRead 0x10000028#32) apple320 = true ∧
    rejected (.wordRead 0x020#32) apple320 = true ∧ rejected (.wordRead 0x024#32) apple320 = true ∧
    rejected (.wordRead 0x034#32) apple320 = true ∧ rejected (.wordRead 0xFFC#32) apple320 = true ∧
    rejected (.wordRead 0x2000#32) apple320 = true ∧ rejected (.wordRead 0x002#32) apple320 = true ∧
    rejected (.wordRead 0x14000000#32) apple320 = true ∧ rejected (.wordRead 0x20000000#32) apple320 = true ∧
    rejected (.wordRead 0x1000#32) State.reset = true ∧ rejected (.wordRead 0x10000000#32) State.reset = true := by decide

theorem test_bus_errors_of_writes_and_sizes :
    rejected (.wordWrite 0x000#32 0#32) apple320 = true ∧ rejected (.wordWrite 0x014#32 0x40#32) apple320 = true ∧
    rejected (.wordWrite 0x01C#32 0#32) apple320 = true ∧
    rejected (.wordWrite 0x10000000#32 0xFFFFFFFF#32) apple320 = true ∧
    rejected (.wordWrite 0x1000#32 0#32) apple320 = true ∧
    rejected ⟨.read, 0x01C#32, 2, 0b0011#4, 0⟩ apple320 = true ∧
    rejected ⟨.write 0x00000002#32, 0x020#32, 2, 0b1111#4, 0⟩ apple320 = true ∧
    rejected ⟨.write 0x00000002#32, 0x020#32, 4, 0b0011#4, 0⟩ apple320 = true := by decide

/-! ## Command errors (95_test_vectors.md, 3.8) -/

theorem test_command_errors :
    shown (.cmd 0x00000102#32) State.reset = some (some .ok, 0x100#32) ∧
    shown (.cmd 0x00000002#32) State.reset = some (some .ok, 0x300#32) ∧
    shown (.cmd 0x00000003#32) State.reset = some (some .ok, 0x300#32) ∧
    shown (.cmd 0x00000001#32) State.reset = some (some .ok, 0x200#32) ∧
    shown (.cmd 0x00000004#32) State.reset = some (some .ok, 0x000#32) ∧
    shown (.cmd 0x000000FF#32) apple320 = some (some .ok, 0x125#32) := by decide

/-! ## Reset (R700, R702) -/

theorem test_reset_event :
    nextOf (step (withEvent (.reset (some (.cmd 2))) apple320)) = some { State.reset with epoch := 1 } := by decide

/-! ## Witnesses: for each statement with hypotheses, a case that meets all of them -/

/-- The parameters of State.reset are in the ranges of R9. -/
theorem defaultParams_legal : defaultParams.Legal := by constructor <;> decide

theorem reset_inv : State.reset.Inv := by constructor <;> first | exact defaultParams_legal | decide

theorem filter32_inv : filter32.Inv := by constructor <;> first | exact defaultParams_legal | decide

theorem apple32_inv : apple32.Inv := by constructor <;> first | exact defaultParams_legal | decide

/-- `filter32` with the key "a" absorbed, then added (bits 0, 3 and 6, 95_test_vectors.md, 3.3). -/
def beforeA : State := absorbed [0x61] filter32

def afterA : State :=
  { filter32 with
    bkt := ⟨[(0, 0x49#32)], 1⟩, loc := ⟨[(1, 3#32), (2, 6#32)], 3⟩, locValid := true, hashA := 0x050C5D80#32,
    hashB := 0x99D625A3#32, resp := some .ok }

theorem beforeA_inv : beforeA.Inv := by constructor <;> first | exact defaultParams_legal | decide

theorem add_beforeA : exec .add beforeA = .next afterA := by
  have h : nextOf (exec .add beforeA) = some afterA := by decide
  revert h
  cases exec .add beforeA <;> simp [nextOf]

/-- The same filter in a BFE that holds an old word above the filter and has been reset once more. -/
def old32 : State := { filter32 with bkt := ⟨[(1, 5#32)], 2⟩, epoch := 1 }

theorem old32_inv : old32.Inv := by constructor <;> first | exact defaultParams_legal | decide

theorem witness_DecodeOfEncodeIsTheInstruction :
    (Instr.rdLoc 1023).wellFormed = true ∧ (Instr.rdBkt 67108863).wellFormed = true ∧
    (Instr.kb 0xFF).wellFormed = true := by decide

theorem witness_OnlyEncodingsDecodeToInstructions :
    decode ⟨.write 0xFFFFFF61#32, 0x024#32, 4, 0b1111#4, 5⟩ = .instr (.kb 0x61) ∧
    decode ⟨.read, 0x1FFC#32, 4, 0b1111#4, 0⟩ = .instr (.rdLoc 1023) := by decide

theorem witness_OpcodeTableRowsAreDisjoint :
    Instr.keyreset.row ∈ opcodeTable ∧ Instr.keyreset.row.describes (Txn.cmd 4#32) = true := by decide

theorem witness_StepRunsTheDecodedInstruction :
    (withEvent (.txn (.cmd 2#32)) filter32).port = .txn (.cmd 2#32) :: [] ∧ decode (.cmd 2#32) = .instr .add := by decide

theorem witness_StepTakesTheOldestEvent :
    State.reset.port = [] ∧
    ∃ t, step { filter32 with port := [.txn (.cmd 2#32), .reset none] } = .next t := ⟨rfl, _, rfl⟩

/-- Case (a) of R610. -/
theorem witness_BusErrorCase_size_mask_alignment :
    BusErrorCase filter32 ⟨.read, 0x01C#32, 2, 0b1111#4, 0⟩ ∧ BusErrorCase filter32 ⟨.read, 0x01C#32, 4, 0b0111#4, 0⟩ ∧
    BusErrorCase filter32 (.wordRead 0x01E#32) :=
  ⟨.inl (.inl (by decide)), .inl (.inr (.inl (by decide))), .inl (.inr (.inr (by decide)))⟩

/-- Case (b). -/
theorem witness_BusErrorCase_write_read_only :
    BusErrorCase filter32 (.wordWrite 0x030#32 0) ∧ BusErrorCase filter32 (.wordWrite 0x1FFC#32 0) ∧
    BusErrorCase filter32 (.wordWrite 0x10000000#32 0) :=
  ⟨.inr (.inl ⟨⟨_, rfl⟩, by decide⟩), .inr (.inl ⟨⟨_, rfl⟩, by decide⟩), .inr (.inl ⟨⟨_, rfl⟩, by decide⟩)⟩

/-- Case (c). -/
theorem witness_BusErrorCase_read_write_only :
    BusErrorCase filter32 (.wordRead 0x020#32) ∧ BusErrorCase filter32 (.wordRead 0x024#32) :=
  ⟨.inr (.inr (.inl (by decide))), .inr (.inr (.inl (by decide)))⟩

/-- Case (d), at both ends of each reserved range. -/
theorem witness_BusErrorCase_reserved :
    BusErrorCase filter32 (.wordRead 0x034#32) ∧ BusErrorCase filter32 (.wordWrite 0xFFC#32 0) ∧
    BusErrorCase filter32 (.wordRead 0x2000#32) ∧ BusErrorCase filter32 (.wordRead 0x0FFFFFFC#32) ∧
    BusErrorCase filter32 (.wordRead 0x20000000#32) ∧ BusErrorCase filter32 (.wordRead 0xFFFFFFFC#32) := by
  refine ⟨?_, ?_, ?_, ?_, ?_, ?_⟩ <;> exact .inr (.inr (.inr (.inl (by decide))))

/-- Case (e), at the first unmapped element, and with no filter. -/
theorem witness_BusErrorCase_unmapped_loc :
    BusErrorCase filter32 (.wordRead 0x100C#32) ∧ BusErrorCase State.reset (.wordRead 0x1000#32) :=
  ⟨.inr (.inr (.inr (.inr (.inl (by decide))))), .inr (.inr (.inr (.inr (.inl (by decide)))))⟩

/-- Case (f). -/
theorem witness_BusErrorCase_unmapped_bkt :
    BusErrorCase filter32 (.wordRead 0x10000004#32) ∧ BusErrorCase State.reset (.wordRead 0x10000000#32) :=
  ⟨.inr (.inr (.inr (.inr (.inr (by decide))))), .inr (.inr (.inr (.inr (.inr (by decide)))))⟩

/-- No case: the last mapped elements, a write to CMD, and a write to NUMBITS. -/
theorem witness_not_BusErrorCase :
    ¬ BusErrorCase filter32 (.wordRead 0x1008#32) ∧ ¬ BusErrorCase filter32 (.wordRead 0x10000000#32) ∧
    ¬ BusErrorCase State.reset (.cmd 2#32) ∧ ¬ BusErrorCase State.reset (.wordWrite 0x00C#32 1#32) := by
  refine ⟨?_, ?_, ?_, ?_⟩ <;>
    simp [BusErrorCase, Txn.isWrite, Txn.cmd, Txn.wordRead, Txn.wordWrite, readOnlyOffsets, filter32]

theorem witness_IllegalCommandWordsOnlySetErr :
    IsCommand (.cmd 0x100#32) 0x100#32 ∧ (0x100#32).toNat / 256 ≠ 0 ∧
    IsCommand (.cmd 0#32) 0#32 ∧ ¬ (1 ≤ (0#32).toNat % 256 ∧ (0#32).toNat % 256 ≤ 4) ∧
    IsCommand (.cmd 5#32) 5#32 ∧ ¬ (1 ≤ (5#32).toNat % 256 ∧ (5#32).toNat % 256 ≤ 4) ∧
    (withEvent (.txn (.cmd 0x102#32)) filter32).port = .txn (.cmd 0x102#32) :: [] := by
  refine ⟨⟨rfl, rfl, rfl, rfl⟩, by decide, ⟨rfl, rfl, rfl, rfl⟩, by decide, ⟨rfl, rfl, rfl, rfl⟩, by decide, rfl⟩

/-- A command that succeeds, and one that fails. -/
theorem witness_CommandsSucceedOrOnlySetErr :
    IsCommand (.cmd 2#32) 2#32 ∧ (withEvent (.txn (.cmd 2#32)) filter32).port = .txn (.cmd 2#32) :: [] ∧
    (withEvent (.txn (.cmd 2#32)) State.reset).port = .txn (.cmd 2#32) :: [] := ⟨⟨rfl, rfl, rfl, rfl⟩, rfl, rfl⟩

theorem witness_ErrIsOverwrittenByCommandsOnly :
    (IsCommand (.cmd 4#32) 4#32 ∧ (withEvent (.txn (.cmd 4#32)) filter32).port = .txn (.cmd 4#32) :: []) ∧
    ((∀ cw, ¬ IsCommand (.wordRead 0x01C#32) cw) ∧
      ∃ t, step (withEvent (.txn (.wordRead 0x01C#32)) { filter32 with err := .illegalCmd }) = .next t) ∧
    (withEvent (.reset none) filter32).port = .reset none :: [] :=
  ⟨⟨⟨rfl, rfl, rfl, rfl⟩, rfl⟩, ⟨fun _ h => (nomatch h.1), _, rfl⟩, rfl⟩

theorem witness_ResetEventGivesTheResetState :
    (withEvent (.reset (some (.cmd 2#32))) apple32).port = .reset (some (.cmd 2#32)) :: [] := rfl

/-- A failing CONFIG does not deconfigure; a reset does. -/
theorem witness_OnlyResetDeconfigures :
    (filter32.configured = true ∧
      (∀ a rest, (withEvent (.txn (.cmd 1#32)) { filter32 with numbits := 0 }).port ≠ .reset a :: rest) ∧
      ∃ t, step (withEvent (.txn (.cmd 1#32)) { filter32 with numbits := 0 }) = .next t) ∧
    (withEvent (.reset none) filter32).port = .reset none :: [] :=
  ⟨⟨rfl, fun _ _ h => (by cases h), _, rfl⟩, rfl⟩

/-- R9 at both ends of its ranges. -/
theorem witness_ResetMeetsTheInvariant :
    defaultParams.Legal ∧ { defaultParams with mMax := 32, kMax := 1 }.Legal ∧
    { defaultParams with mMax := 2147483648, kMax := 1024, rehashFn := .other }.Legal := by
  refine ⟨defaultParams_legal, ?_, ?_⟩ <;> constructor <;> decide

theorem withEvent_inv {s : State} (e : Event) (h : s.Inv) : (withEvent e s).Inv := by cases h; constructor <;> assumption

theorem witness_EveryStepKeepsTheInvariant :
    (withEvent (.txn (.cmd 2#32)) apple32).Inv ∧ ∃ t, step (withEvent (.txn (.cmd 2#32)) apple32) = .next t :=
  ⟨withEvent_inv _ apple32_inv, _, rfl⟩

theorem witness_ParametersNeverChange : ∃ t, step (withEvent (.reset none) apple32) = .next t := ⟨_, rfl⟩

theorem witness_KeyByteWriteNeverFailsAndIgnoresHighBits :
    (withEvent (.txn (.wordWrite 0x024#32 0xFFFFFF61#32)) State.reset).port
      = .txn (.wordWrite 0x024#32 0xFFFFFF61#32) :: [] := rfl

theorem witness_KeyBytesHashInWriteOrder :
    { filter32 with port := eventsOf (keyOps apple) }.port = eventsOf (keyOps apple) ++ [] := rfl

/-- One case for each clause: a reset, a key byte, KEYRESET, a CONFIG and an ADD that succeed, and a read. -/
theorem witness_AccChangesOnlyWhereTheSpecSays :
    (∃ t, step (withEvent (.reset none) filter32) = .next t) ∧
    decode (.wordWrite 0x024#32 0x61#32) = .instr (.kb 0x61) ∧
    decode (.cmd 4#32) = .instr .keyreset ∧ (decode (.cmd 1#32) = .instr .config ∧ ¬ filter32.configInvalid) ∧
    (decode (.cmd 2#32) = .instr .add ∧ decode (.cmd 3#32) = .instr .test ∧ filter32.configured = true) ∧
    (decode (.wordRead 0x028#32) = .instr .rdAcc ∧
      ∃ t, step (withEvent (.txn (.wordRead 0x028#32)) filter32) = .next t) :=
  ⟨⟨_, rfl⟩, by decide, by decide, by decide, by decide, by decide, _, rfl⟩

theorem witness_WorkedHashValues :
    defaultParams.hashInit = 0x811C9DC5#32 ∧ defaultParams.hashPrime = 0x01000193#32 ∧
    defaultParams.rehashFn = .default := ⟨rfl, rfl, rfl⟩

/-- The least requests, and the greatest that this BFE takes. -/
theorem witness_ConfigBuildsAnEmptyFilter :
    ((requested 1 1).Inv ∧ (requested 1 1).numbits ≠ 0 ∧ (requested 1 1).numhashes ≠ 0) ∧
    ((requested 131072 8).Inv ∧ (requested 131072 8).numbits ≠ 0 ∧ (requested 131072 8).numhashes ≠ 0 ∧
      32 * (((requested 131072 8).numbits.toNat + 31) / 32) ≤ (requested 131072 8).par.mMax ∧
      (requested 131072 8).numhashes.toNat ≤ (requested 131072 8).par.kMax) := by
  refine ⟨⟨?_, by decide, by decide⟩, ?_, by decide, by decide, by decide, by decide⟩ <;>
    constructor <;> first | exact defaultParams_legal | decide

theorem witness_FailingConfigKeepsTheFilter :
    (requested 0 3).numbits = 0 ∧ (requested 32 0).numhashes = 0 ∧
    (requested 131073 3).par.mMax < 32 * (((requested 131073 3).numbits.toNat + 31) / 32) ∧
    (requested 32 9).par.kMax < (requested 32 9).numhashes.toNat := by decide

theorem witness_CapacityIsTheLeastMultipleOf32 : 128 % 32 = 0 ∧ 100 ≤ 128 ∧ 32 % 32 = 0 := by decide

/-- Both sides of both thresholds, and both ends. -/
theorem witness_WidthThresholdsAgreeWithTheDerivation :
    locWidth 32 = .one ∧ locWidth 256 = .one ∧ locWidth 288 = .two ∧ locWidth 65536 = .two ∧ locWidth 65568 = .four ∧
    locWidth 2147483648 = .four := by decide

theorem witness_PositionsHaveTheClosedForm : (0 : Int) < 32 ∧ 2 < 3 := by decide

theorem witness_AddAndTestLeaveTheProbe : beforeA.Inv ∧ beforeA.configured = true ∧ 2 < beforeA.k.toNat ∧ beforeA.k.toNat ≤ 3 :=
  ⟨beforeA_inv, rfl, by decide, by decide⟩

theorem witness_AddSetsExactlyTheKeysBits :
    (beforeA.Inv ∧ beforeA.configured = true) ∧ (State.reset.Inv ∧ State.reset.configured = false) :=
  ⟨⟨beforeA_inv, rfl⟩, reset_inv, rfl⟩

/-- A bit that was 1, and one that ADD sets. -/
theorem witness_AddOnlySetsAndAloneSetsBits :
    (apple32.Inv ∧ apple32.configured = true ∧ (∃ t, exec .add apple32 = .next t) ∧ 19 < apple32.m.toNat ∧
      apple32.filterBit 19 = true) ∧
    ((withEvent (.txn (.cmd 2#32)) beforeA).Inv ∧
      ∃ t, step (withEvent (.txn (.cmd 2#32)) beforeA) = .next t ∧ 6 < t.m.toNat ∧
        (withEvent (.txn (.cmd 2#32)) beforeA).filterBit 6 = false ∧ t.filterBit 6 = true) :=
  ⟨⟨apple32_inv, rfl, ⟨_, rfl⟩, by decide, by decide⟩,
    withEvent_inv _ beforeA_inv, _, rfl, by decide, by decide, by decide⟩

theorem witness_AddIsIdempotent :
    beforeA.Inv ∧ (absorbed [0x61] afterA).Inv ∧ beforeA.configured = true ∧ beforeA.acc = hashOf beforeA.par [0x61] ∧
    exec .add beforeA = .next afterA ∧ (absorbed [0x61] afterA).bkt = afterA.bkt ∧
    (absorbed [0x61] afterA).epoch = afterA.epoch ∧ (absorbed [0x61] afterA).par = afterA.par ∧
    (absorbed [0x61] afterA).m = afterA.m ∧ (absorbed [0x61] afterA).k = afterA.k ∧
    (absorbed [0x61] afterA).configured = true ∧
    (absorbed [0x61] afterA).acc = hashOf (absorbed [0x61] afterA).par [0x61] := by
  refine ⟨beforeA_inv, ?_, rfl, rfl, add_beforeA, rfl, rfl, rfl, rfl, rfl, rfl, rfl⟩
  constructor <;> first | exact defaultParams_legal | decide

theorem witness_AddsInAnyOrderLeaveTheSameBuckets :
    filter32.Inv ∧ filter32.configured = true ∧ filter32.acc = filter32.par.hashInit ∧
    [apple, eg, []].Perm [[], eg, apple] ∧ [apple, eg, []].getLast? = some [] :=
  ⟨filter32_inv, rfl, rfl, by decide, rfl⟩

theorem witness_TestAnswersWhetherAllBitsAreSet :
    (apple32.Inv ∧ apple32.configured = true) ∧ (State.reset.Inv ∧ State.reset.configured = false) :=
  ⟨⟨apple32_inv, rfl⟩, reset_inv, rfl⟩

theorem witness_TestChangesOnlyItsFields :
    (∃ t, exec .test apple32 = .next t) ∧ ∃ t, exec .test State.reset = .next t := ⟨⟨_, rfl⟩, _, rfl⟩

/-- `afterA`, then the host absorbs "a" again. -/
def againA : State := { absorbed [0x61] afterA with resp := some .ok }

theorem witness_NoFalseNegatives :
    beforeA.Inv ∧ beforeA.configured = true ∧ beforeA.acc = hashOf beforeA.par [0x61] ∧
    exec .add beforeA = .next afterA ∧ FilterRun afterA againA ∧ againA.acc = hashOf againA.par [0x61] := by
  refine ⟨beforeA_inv, rfl, rfl, add_beforeA, ?_, rfl⟩
  refine .arrive [.txn (encode (.kb 0x61))] (.perform (t := againA) ?_ ?_ (.refl _))
  · have h : nextOf (step { afterA with port := afterA.port ++ [.txn (encode (.kb 0x61))] }) = some againA := by decide
    revert h
    cases step { afterA with port := afterA.port ++ [.txn (encode (.kb 0x61))] } <;> simp [nextOf]
  · rintro ⟨h, _⟩
    exact absurd h (by decide)

/-- A failing CONFIG does not end a filter. -/
theorem not_endsFilter : ¬ (withEvent (.txn (.cmd 1#32)) { apple32 with numbits := 0 }).endsFilter :=
  fun h => h.2 (.inl (by decide))

theorem witness_BitsStaySetWithinAFilter :
    (withEvent (.txn (.cmd 2#32)) apple32).Inv ∧ (withEvent (.txn (.cmd 2#32)) apple32).configured = true ∧
    ¬ (withEvent (.txn (.cmd 2#32)) apple32).endsFilter ∧
    (∃ t, step (withEvent (.txn (.cmd 2#32)) apple32) = .next t) ∧ apple32.filterBit 19 = true :=
  ⟨withEvent_inv _ apple32_inv, rfl, fun h => absurd h.1 (by decide), ⟨_, rfl⟩, by decide⟩

/-- A failing CONFIG, which is no ADD and no TEST. -/
theorem witness_FilterStateHasNoOtherWriter :
    ¬ (withEvent (.txn (.cmd 1#32)) { apple32 with numbits := 0 }).endsFilter ∧
    (∃ t, step (withEvent (.txn (.cmd 1#32)) { apple32 with numbits := 0 }) = .next t) ∧
    decode (.cmd 1#32) ≠ .instr .add := ⟨not_endsFilter, ⟨_, rfl⟩, by decide⟩

theorem witness_ProbeAndResultAreHeld :
    ¬ (withEvent (.txn (.cmd 1#32)) { apple32 with numbits := 0 }).endsFilter ∧
    (∃ t, step (withEvent (.txn (.cmd 1#32)) { apple32 with numbits := 0 }) = .next t) ∧
    decode (.cmd 1#32) ≠ .instr .add ∧ decode (.cmd 1#32) ≠ .instr .test :=
  ⟨not_endsFilter, ⟨_, rfl⟩, by decide, by decide⟩

theorem witness_LocReadIsMappedBelowK :
    (filter32.configured = true ∧ 2 < filter32.k.toNat) ∧ filter32.k.toNat ≤ 3 ∧ State.reset.configured = false := by decide

theorem witness_BktReadIsMappedBelowM :
    (filter320.configured = true ∧ 9 < filter320.m.toNat / 32) ∧ filter320.m.toNat / 32 ≤ 10 ∧
    State.reset.configured = false := by decide

/-- A read that succeeds and one that does not. -/
theorem witness_ReadsHaveNoSideEffect :
    (Txn.wordRead 0x01C#32).dir = .read ∧ (Txn.wordRead 0x020#32).dir = .read := ⟨rfl, rfl⟩

theorem witness_ExportImageIsLittleEndian :
    9 < apple320.m.toNat / 32 ∧ 39 < 4 * (apple320.m.toNat / 32) ∧ 3 < 4 ∧ 7 < 8 := by decide

theorem witness_ConsumerOfTheImageAgreesWithTest :
    apple32.Inv ∧ apple32.configured = true ∧ ∃ t, exec .test apple32 = .next t := ⟨apple32_inv, rfl, _, rfl⟩

theorem witness_UnreachableStorageIsUnobservable :
    filter32.Inv ∧ old32.Inv ∧ Indistinguishable filter32 old32 ∧ ∃ t, step filter32 = .next t :=
  ⟨filter32_inv, old32_inv, ⟨rfl, by decide, by decide⟩, _, rfl⟩

end Sys2Proof.Tests
end

section
/-! PROOFS. The port and the parameters stand outside the register map: what an instruction, the reset input and a step
do to them, and the statements of spec/00_scope.md that follow. -/

namespace Sys2Proof.Machine

variable {s t : State} {i : Instr}

@[simp] theorem takeReset_port (s : State) : (takeReset s).port = s.port := rfl
@[simp] theorem takeReset_par (s : State) : (takeReset s).par = s.par := rfl

/-- An instruction works on the registers and the storage: none of the nine next states of `exec_cases` differs in the
events that wait or in the parameters. -/
theorem exec_keeps_port_par (h : exec i s = .next t) : t.port = s.port ∧ t.par = s.par := by
  obtain ⟨r, rfl⟩ | ⟨c, rfl⟩ | ⟨n, -, rfl⟩ | ⟨n, -, rfl⟩ | ⟨b, -, rfl⟩ | ⟨-, rfl⟩ | ⟨-, -, rfl⟩ | ⟨-, -, rfl⟩ |
    ⟨-, -, rfl⟩ := exec_cases h
  all_goals simp

/-- Whatever the event, a step takes the oldest one off the port and no other (R220, R221), and leaves the parameters
(R9). With no event the tail of the empty port is the port itself. -/
theorem step_port_par (h : step s = .next t) : t.port = s.port.tail ∧ t.par = s.par := by
  obtain ⟨hp, rfl⟩ | ⟨a, rest, hp, rfl⟩ | ⟨x, rest, i, hp, -, hx⟩ | ⟨x, rest, c, hp, -, rfl⟩ | ⟨x, rest, c, hp, -, rfl⟩ :=
    step_cases h
  · simp [hp]
  · simp [hp]
  · obtain ⟨hport, hpar⟩ := exec_keeps_port_par hx
    simp [hport, hpar, hp]
  · simp [hp]
  · simp [hp]

/-- Settles O8: with an empty port the step is idle, and otherwise it leaves the tail of the port. -/
theorem stepTakesTheOldestEvent : Obligations.StepTakesTheOldestEvent := by
  refine ⟨fun s => step_idle, fun s t e rest hp h => ?_⟩
  rw [(step_port_par h).left, hp, List.tail_cons]

/-- Settles O19, from what each kind of step does to the parameters. -/
theorem parametersNeverChange : Obligations.ParametersNeverChange :=
  fun _ _ h => (step_port_par h).right

end Sys2Proof.Machine
end

section
/-! PROOFS. The meanings that a single condition decides: words of the spec's tables, the operand registers, the window
reads, and what the reset state shows (R110, R113, R114, R126, R204, R205, R303, R308). -/

namespace Sys2Proof.Machine

variable {s : State}

/-- Settles O4: each transaction is closed, and the decoder computes. -/
theorem specWordsDecode : Obligations.SpecWordsDecode := by
  unfold Obligations.SpecWordsDecode
  decide

/-- Settles O20: the two writes set their field and the two reads return it, by the definitions of their meanings. -/
theorem operandRegistersStoreTheWord : Obligations.OperandRegistersStoreTheWord :=
  fun _ _ => ⟨rfl, rfl, rfl, rfl⟩

/-! ## Reading the windows -/

theorem exec_rdBkt_mapped {j : Nat} (h : s.configured = true ∧ j < s.m.toNat / 32) :
    exec (.rdBkt j) s = .next (s.respond (.okData (s.bktWord j))) := if_pos h

theorem exec_rdBkt_unmapped {j : Nat} (h : ¬ (s.configured = true ∧ j < s.m.toNat / 32)) :
    exec (.rdBkt j) s = .next (s.respond .error) := if_neg h

theorem exec_rdLoc_mapped {n : Nat} (h : s.configured = true ∧ n < s.k.toNat) :
    exec (.rdLoc n) s = .next (s.respond (.okData (s.locWord n))) := if_pos h

theorem exec_rdLoc_unmapped {n : Nat} (h : ¬ (s.configured = true ∧ n < s.k.toNat)) :
    exec (.rdLoc n) s = .next (s.respond .error) := if_neg h

/-! ## The reset state -/

/-- Settles O14: the fields are those of `State.resetOf`, and with no filter neither window is mapped. -/
theorem resetValues : Obligations.ResetValues := by
  intro p epoch
  refine ⟨rfl, rfl, rfl, rfl, rfl, rfl, rfl, rfl, rfl, rfl, rfl, rfl, ?_, fun j => ?_, fun i => ?_, rfl, rfl, rfl⟩
  · simp [State.statusWord, State.resetOf, bit, LocWidth.bytes, ErrCode.code]
  · exact exec_rdBkt_unmapped fun hmapped => Bool.noConfusion hmapped.1
  · exact exec_rdLoc_unmapped fun hmapped => Bool.noConfusion hmapped.1

end Sys2Proof.Machine
end

section
/-! PROOFS. What a step does to the filter: every step but a reset and a successful CONFIG, ADD or TEST keeps all of it,
and ADD alone writes bucket words between two filters (R104 to R106, R124 (c) and R428). -/

namespace Sys2Proof.Machine

variable {s t : State} {i : Instr}

/-- `t` has the filter of `s`, and all that was probed and tested in it: they differ at most in STATUS.ERR, in the
registers that describe no filter, in the events that wait and in the response. -/
def KeepsFilter (s t : State) : Prop :=
  t = { s with
    port := t.port, err := t.err, numbits := t.numbits, numhashes := t.numhashes, acc := t.acc, resp := t.resp }

theorem KeepsFilter.filter_eq (h : KeepsFilter s t) :
    (t.m = s.m ∧ t.k = s.k ∧ t.w = s.w ∧ t.configured = s.configured) ∧ t.bkt = s.bkt ∧
    ∀ l, t.filterBit l = s.filterBit l := by
  rw [h]
  exact ⟨⟨rfl, rfl, rfl, rfl⟩, rfl, fun _ => rfl⟩

/-- Taking events off the port keeps the filter. -/
theorem keepsFilter_port (s : State) (rest : List Event) : KeepsFilter s { s with port := rest } := rfl

/-- What an instruction does to the filter: nothing, or it is a CONFIG, ADD or TEST that succeeds. -/
theorem exec_filter_cases (h : exec i s = .next t) :
    KeepsFilter s t
    ∨ (i = .config ∧ ¬ s.configInvalid ∧ KeepsFilter s.construct t)
    ∨ (i = .add ∧ s.configured = true ∧ KeepsFilter (s.probe.setBits s.probe.locations) t)
    ∨ (i = .test ∧ s.configured = true
        ∧ KeepsFilter { s.probe with result := s.probe.allSet s.probe.locations } t) := by
  obtain ⟨r, rfl⟩ | ⟨c, rfl⟩ | ⟨n, -, rfl⟩ | ⟨n, -, rfl⟩ | ⟨b, -, rfl⟩ | ⟨-, rfl⟩ | ⟨hi, hv, rfl⟩ | ⟨hi, hc, rfl⟩ |
    ⟨hi, hc, rfl⟩ := exec_cases h
  · exact .inl rfl
  · exact .inl rfl
  · exact .inl rfl
  · exact .inl rfl
  · exact .inl rfl
  · exact .inl rfl
  · exact .inr (.inl ⟨hi, hv, rfl⟩)
  · exact .inr (.inr (.inl ⟨hi, hc, rfl⟩))
  · exact .inr (.inr (.inr ⟨hi, hc, rfl⟩))

/-- What a step does to the filter: nothing, a reset, or what its instruction does. -/
theorem step_filter_cases (h : step s = .next t) :
    KeepsFilter s t
    ∨ (∃ a rest, s.port = .reset a :: rest ∧ t = takeReset { s with port := rest })
    ∨ (∃ x rest i, s.port = .txn x :: rest ∧ decode x = .instr i ∧ exec i { s with port := rest } = .next t) := by
  obtain ⟨-, rfl⟩ | hreset | hinstr | ⟨x, rest, c, -, -, rfl⟩ | ⟨x, rest, c, -, -, rfl⟩ := step_cases h
  · exact .inl rfl
  · exact .inr (.inl hreset)
  · exact .inr (.inr hinstr)
  · exact .inl rfl
  · exact .inl rfl

/-- An instruction other than a successful CONFIG keeps the filter's `M`, `K` and `W`; only a successful ADD writes
bucket words, and it clears no bit. -/
theorem exec_within_filter (h : exec i s = .next t) (hi : ¬ (i = .config ∧ ¬ s.configInvalid)) :
    (t.m = s.m ∧ t.k = s.k ∧ t.w = s.w ∧ t.configured = s.configured) ∧
    ((i = .add → s.configured = false) → t.bkt = s.bkt) ∧
    ∀ l, s.filterBit l = true → t.filterBit l = true := by
  obtain hk | ⟨hconfig, hv, -⟩ | ⟨hadd, hc, hk⟩ | ⟨-, -, hk⟩ := exec_filter_cases h
  · obtain ⟨hregs, hbkt, hbits⟩ := hk.filter_eq
    exact ⟨hregs, fun _ => hbkt, fun l hl => (hbits l).trans hl⟩
  · exact absurd ⟨hconfig, hv⟩ hi
  · obtain ⟨hregs, -, hbits⟩ := hk.filter_eq
    refine ⟨by simpa using hregs, fun hu => absurd (hu hadd) (by simp [hc]), fun l hl => ?_⟩
    have hprobe : s.probe.filterBit l = true := hl
    rw [hbits, State.setBits_filterBit, hprobe, Bool.true_or]
  · obtain ⟨hregs, hbkt, hbits⟩ := hk.filter_eq
    exact ⟨hregs, fun _ => hbkt, fun l hl => (hbits l).trans hl⟩

/-- The same of a step that does not end the filter's life. -/
theorem step_within_filter (hlife : ¬ s.endsFilter) (h : step s = .next t) :
    (t.m = s.m ∧ t.k = s.k ∧ t.w = s.w ∧ t.configured = s.configured) ∧
    ((∀ x rest, s.port = .txn x :: rest → decode x = .instr .add → s.configured = false) → t.bkt = s.bkt) ∧
    ∀ l, s.filterBit l = true → t.filterBit l = true := by
  obtain hk | ⟨a, rest, hp, -⟩ | ⟨x, rest, i, hp, hd, hx⟩ := step_filter_cases h
  · obtain ⟨hregs, hbkt, hbits⟩ := hk.filter_eq
    exact ⟨hregs, fun _ => hbkt, fun l hl => (hbits l).trans hl⟩
  · exact absurd (by simp [State.endsFilter, hp]) hlife
  · have hi : ¬ (i = .config ∧ ¬ s.configInvalid) := fun ⟨hconfig, hv⟩ =>
      hlife (by simpa [State.endsFilter, hp, hd, hconfig] using hv)
    obtain ⟨hregs, hbkt, hbits⟩ := exec_within_filter hx hi
    exact ⟨hregs, fun hu => hbkt fun hadd => hu x rest hp (hadd ▸ hd), hbits⟩

/-- Settles O40, from what a step within the life of a filter keeps. -/
theorem bitsStaySetWithinAFilter : Obligations.BitsStaySetWithinAFilter := by
  intro s t _ hc hlife h
  obtain ⟨⟨hm, hk, hw, hconf⟩, -, hbits⟩ := step_within_filter hlife h
  exact ⟨hm, hk, hw, hconf.trans hc, hbits⟩

/-- Settles O41, from what a step within the life of a filter keeps. -/
theorem filterStateHasNoOtherWriter : Obligations.FilterStateHasNoOtherWriter := by
  intro s t hlife h
  obtain ⟨⟨hm, hk, hw, -⟩, hbkt, -⟩ := step_within_filter hlife h
  exact ⟨hm, hk, hw, hbkt⟩

end Sys2Proof.Machine
end

section
/-! PROOFS. The invariant of R124: the reset state meets it, each part of an operation keeps it, and so every step
does. -/

namespace Sys2Proof.Machine

variable {s t : State} {i : Instr} {p : Params}

/-! ## Reset -/

theorem Memory.wf_nil (free : Nat → Word) (n : Nat) : (Memory.mk [] n).wf free :=
  ⟨List.Pairwise.nil, fun _ hc => absurd hc List.not_mem_nil⟩

/-- With no filter, nothing listed and nothing zeroed, the invariant asks only for legal parameters. -/
theorem resetOf_inv (hp : p.Legal) (epoch : Nat) : (State.resetOf p epoch).Inv where
  legal := hp
  m_multiple := rfl
  unconfigured _ := ⟨rfl, rfl, rfl⟩
  unprobed _ := ⟨rfl, rfl, rfl, rfl⟩
  m_range hc := Bool.noConfusion hc
  k_range hc := Bool.noConfusion hc
  width hc := Bool.noConfusion hc
  positions_lt hc := Bool.noConfusion hc
  bkt_wf := Memory.wf_nil _ _
  loc_wf := Memory.wf_nil _ _
  bkt_zeroed := by simp [State.resetOf]
  loc_zeroed := ⟨Nat.zero_le _, Nat.zero_le _⟩
  bkt_cells _ hc := absurd hc List.not_mem_nil
  loc_cells _ hc := absurd hc List.not_mem_nil

/-- Settles O17: nothing is listed, nothing is zeroed and there is no filter, whatever the parameters. -/
theorem resetMeetsTheInvariant : Obligations.ResetMeetsTheInvariant :=
  ⟨fun _ epoch hp => resetOf_inv hp epoch, resetOf_inv (by constructor <;> decide) 0⟩

/-! ## The parts of the operations -/

/-- The invariant speaks of the filter and of the parameters only. -/
theorem State.Inv.of_keepsFilter (hs : s.Inv) (h : KeepsFilter s t) : t.Inv := by
  rw [h]
  cases hs
  constructor <;> assumption

theorem State.Inv.m_pos (hs : s.Inv) (hc : s.configured = true) : 0 < s.m.toNat := by
  have := (hs.m_range hc).1; omega

/-- A position below `M` lies in a bucket word of the filter, as `M` is a multiple of 32. -/
theorem State.Inv.word_lt (hs : s.Inv) {l : Nat} (hl : l < s.m.toNat) : l / 32 < s.m.toNat / 32 := by
  have := hs.m_multiple; omega

/-- Reset drops the filter. -/
theorem State.Inv.takeReset (hs : s.Inv) : (takeReset s).Inv :=
  (resetOf_inv hs.legal (s.epoch + 1)).of_keepsFilter (keepsFilter_port _ _)

/-- Setting bits whose positions lie below `M` lists words that CONFIG has zeroed. -/
theorem State.Inv.setBits (hs : s.Inv) {ls : List Nat} (hls : ∀ l ∈ ls, l < s.m.toNat) : (s.setBits ls).Inv := by
  have hcells : ∀ c ∈ (s.setBits ls).bkt.cells, c.1 < (s.setBits ls).bkt.zeroed := by
    intro c hc
    rw [State.setBits_zeroed]
    obtain ⟨l, hl, hcl⟩ | hold := State.mem_setBits hc
    · exact hcl ▸ Nat.lt_of_lt_of_le (hs.word_lt (hls l hl)) hs.bkt_zeroed.1
    · exact hs.bkt_cells c hold
  rw [State.setBits_eq]
  exact { hs with
    bkt_wf := State.setBits_wf ls hs.bkt_wf
    bkt_zeroed := (State.setBits_zeroed (s := s) ls).symm ▸ hs.bkt_zeroed
    bkt_cells := hcells }

/-- What a probe lists is a position of the filter in one of the first `K` elements. -/
theorem State.mem_probe_loc (hm : 0 < s.m.toNat) {c : Nat × Word} (h : c ∈ s.probe.loc.cells) :
    (c.1 < s.k.toNat ∧ c.2.toNat < s.m.toNat) ∨ c ∈ s.loc.cells := by
  obtain ⟨-, hindex, hword⟩ | hold := Memory.mem_writeFrom h
  · obtain ⟨x, hx, hxc⟩ := List.mem_map.1 hword
    obtain ⟨hnonneg, hlt⟩ := State.positions_range hm hx
    have hfits := s.m.isLt
    refine .inl ⟨by simpa using hindex, ?_⟩
    rw [← hxc, toNat_ofInt_of_range hnonneg (by omega)]
    omega
  · exact .inr hold

/-- Probing lists positions of the filter, all below `M`, in elements that CONFIG has zeroed (R446). -/
theorem State.Inv.probe (hs : s.Inv) (hc : s.configured = true) : s.probe.Inv where
  __ := hs
  unprobed hu := Bool.noConfusion (hu.symm.trans hc)
  positions_lt _ i hi :=
    State.probe_locations_lt (hs.m_pos hc) (List.mem_map.2 ⟨i, List.mem_range.2 hi, rfl⟩)
  loc_wf := Memory.wf_writeFrom hs.loc_wf
  loc_zeroed := by simpa using hs.loc_zeroed
  loc_cells c hcell := by
    rw [State.probe_loc, Memory.writeFrom_zeroed]
    obtain ⟨hindex, hword⟩ | hold := State.mem_probe_loc (hs.m_pos hc) hcell
    · exact ⟨Nat.lt_of_lt_of_le hindex hs.loc_zeroed.1, Nat.lt_of_lt_of_le hword (hs.m_range hc).2⟩
    · exact hs.loc_cells c hold

/-- TEST's answer is free where there is a filter. -/
theorem State.Inv.set_result (hs : s.Inv) (hc : s.configured = true) (b : Bool) : { s with result := b }.Inv :=
  { hs with unprobed := fun hu => Bool.noConfusion (hu.symm.trans hc) }

/-! ## CONFIG -/

/-- A capacity that CONFIG accepts fits the register `M`, since `M_MAX` is at most `2^31` (R9). -/
theorem State.construct_m_toNat (hp : s.par.Legal) (hv : ¬ s.configInvalid) :
    s.construct.m.toNat = roundUp32 s.nb := by
  have := hp.mMax_most
  rw [State.construct_m, BitVec.toNat_ofNat, Nat.mod_eq_of_lt]
  simp only [State.configInvalid, not_or] at hv
  omega

theorem State.construct_k_toNat : s.construct.k.toNat = s.nh := by simp [State.nh]

/-- A successful CONFIG zeroes exactly the words and elements of the filter it builds. -/
theorem State.Inv.construct (hs : s.Inv) (hv : ¬ s.configInvalid) : s.construct.Inv := by
  have hm := State.construct_m_toNat hs.legal hv
  have hk := State.construct_k_toNat (s := s)
  obtain ⟨hmul, hle, -⟩ := roundUp32_spec s.nb
  have hbz := hs.bkt_zeroed.2
  have hlz := hs.loc_zeroed.2
  obtain ⟨hnb, hnh, hmax, hkmax⟩ : s.nb ≠ 0 ∧ s.nh ≠ 0 ∧ roundUp32 s.nb ≤ s.par.mMax ∧ s.nh ≤ s.par.kMax := by
    simpa [State.configInvalid, not_or] using hv
  exact {
    legal := hs.legal
    m_multiple := by rw [hm, hmul]
    unconfigured := fun hu => Bool.noConfusion hu
    unprobed := fun _ => ⟨rfl, rfl, rfl, rfl⟩
    m_range := fun _ => by rw [hm, State.construct_par]; omega
    k_range := fun _ => by rw [hk, State.construct_par]; omega
    width := fun _ => by rw [hm, State.construct_w]
    positions_lt := fun _ i hi => by
      rw [State.construct_locWord, if_pos (hk ▸ hi), hm]
      exact Nat.lt_of_lt_of_le (Nat.pos_of_ne_zero hnb) hle
    bkt_wf := Memory.wf_zeroBelow hs.bkt_wf
    loc_wf := Memory.wf_zeroBelow hs.loc_wf
    bkt_zeroed := by
      rw [hm, State.construct_bkt, Memory.zeroBelow_zeroed, State.construct_par]
      omega
    loc_zeroed := by
      rw [hk, State.construct_loc, Memory.zeroBelow_zeroed, State.construct_par]
      omega
    bkt_cells := fun c hc => lt_max_of_lt_left (hs.bkt_cells c (List.mem_filter.1 hc).1)
    loc_cells := fun c hc =>
      have hold := hs.loc_cells c (List.mem_filter.1 hc).1
      ⟨lt_max_of_lt_left hold.1, hold.2⟩ }

/-! ## Instructions and steps -/

theorem exec_inv (hs : s.Inv) (h : exec i s = .next t) : t.Inv := by
  obtain hk | ⟨-, hv, hk⟩ | ⟨-, hc, hk⟩ | ⟨-, hc, hk⟩ := exec_filter_cases h
  · exact hs.of_keepsFilter hk
  · exact (hs.construct hv).of_keepsFilter hk
  · exact ((hs.probe hc).setBits fun _ => State.probe_locations_lt (hs.m_pos hc)).of_keepsFilter hk
  · exact ((hs.probe hc).set_result hc _).of_keepsFilter hk

/-- Settles O18: a step keeps the filter, resets, or performs an instruction, which keeps the invariant. -/
theorem everyStepKeepsTheInvariant : Obligations.EveryStepKeepsTheInvariant := by
  intro s t hs h
  obtain hk | ⟨a, rest, -, rfl⟩ | ⟨x, rest, i, -, -, hx⟩ := step_filter_cases h
  · exact hs.of_keepsFilter hk
  · exact (hs.of_keepsFilter (keepsFilter_port s rest)).takeReset
  · exact exec_inv (hs.of_keepsFilter (keepsFilter_port s rest)) hx

end Sys2Proof.Machine
end

section
/-! PROOFS. Two states that no host can tell apart: the parts of the operations keep them so, and so every event is
answered alike (R125, R126). -/

namespace Sys2Proof.Machine

variable {s t : State}

/-! ## What the two states have in common -/

/-- Everything but the storage and its unspecified values. -/
theorem Indistinguishable.eq_storage (h : Indistinguishable s t) :
    ∃ bkt loc epoch, t = { s with bkt := bkt, loc := loc, epoch := epoch } := ⟨_, _, _, h.rest.symm⟩

theorem Indistinguishable.port_eq (h : Indistinguishable s t) : s.port = t.port := by rw [← h.rest]
theorem Indistinguishable.resp_eq (h : Indistinguishable s t) : s.resp = t.resp := by rw [← h.rest]
theorem Indistinguishable.configured_eq (h : Indistinguishable s t) : s.configured = t.configured := by rw [← h.rest]
theorem Indistinguishable.m_eq (h : Indistinguishable s t) : s.m = t.m := by rw [← h.rest]
theorem Indistinguishable.k_eq (h : Indistinguishable s t) : s.k = t.k := by rw [← h.rest]

/-- What CONFIG asks for, and whether it is in range. -/
theorem Indistinguishable.requests_eq (h : Indistinguishable s t) :
    s.nb = t.nb ∧ s.nh = t.nh ∧ (s.configInvalid ↔ t.configInvalid) := by
  obtain ⟨bkt, loc, epoch, rfl⟩ := h.eq_storage
  exact ⟨rfl, rfl, Iff.rfl⟩

/-- The positions of the absorbed key. -/
theorem Indistinguishable.positions_eq (h : Indistinguishable s t) : s.positions = t.positions :=
  State.positions_congr (by rw [← h.rest]) (by rw [← h.rest]) h.m_eq h.k_eq

/-- The bits of the filter. -/
theorem Indistinguishable.filterBit_eq (h : Indistinguishable s t) (hs : s.Inv) {l : Nat} (hl : l < s.m.toNat) :
    s.filterBit l = t.filterBit l := congrArg (·.getLsbD (l % 32)) (h.words _ (hs.word_lt hl))

/-- The positions that ADD and TEST take from LOC. -/
theorem Indistinguishable.locations_eq (h : Indistinguishable s t) : s.locations = t.locations := by
  unfold State.locations
  rw [← h.k_eq]
  exact List.map_congr_left fun i hi => congrArg BitVec.toNat (h.locations i (List.mem_range.1 hi))

/-- The answer of TEST's loop. -/
theorem Indistinguishable.allSet_eq (h : Indistinguishable s t) (hs : s.Inv) {ls : List Nat}
    (hls : ∀ l ∈ ls, l < s.m.toNat) : s.allSet ls = t.allSet ls := by
  rw [State.allSet_eq, State.allSet_eq, decide_eq_decide]
  exact forall₂_congr fun l hl => by rw [h.filterBit_eq hs (hls l hl)]

/-! ## The same update of both -/

theorem Indistinguishable.respond (h : Indistinguishable s t) (r : Response) :
    Indistinguishable (s.respond r) (t.respond r) := ⟨congrArg (·.respond r) h.rest, h.words, h.locations⟩

theorem Indistinguishable.set_err (h : Indistinguishable s t) (c : ErrCode) :
    Indistinguishable { s with err := c } { t with err := c } :=
  ⟨congrArg (fun u => { u with err := c }) h.rest, h.words, h.locations⟩

theorem Indistinguishable.set_result (h : Indistinguishable s t) (b : Bool) :
    Indistinguishable { s with result := b } { t with result := b } :=
  ⟨congrArg (fun u => { u with result := b }) h.rest, h.words, h.locations⟩

theorem Indistinguishable.set_port (h : Indistinguishable s t) (rest : List Event) :
    Indistinguishable { s with port := rest } { t with port := rest } :=
  ⟨congrArg (fun u => { u with port := rest }) h.rest, h.words, h.locations⟩

/-- The positions of a key do not depend on what may differ. -/
theorem Indistinguishable.probe (h : Indistinguishable s t) : Indistinguishable s.probe t.probe where
  rest := by obtain ⟨bkt, loc, epoch, rfl⟩ := h.eq_storage; rfl
  words := h.words
  locations i hi := by
    rw [State.probe_locWord_at (s := s) hi, State.probe_locWord_at (s := t) (h.k_eq ▸ hi)]
    simp only [h.positions_eq]

theorem Indistinguishable.setBit (h : Indistinguishable s t) (l : Nat) :
    Indistinguishable (s.setBit l) (t.setBit l) where
  rest := by obtain ⟨bkt, loc, epoch, rfl⟩ := h.eq_storage; rfl
  words j hj := by rw [State.setBit_bktWord, State.setBit_bktWord, h.words j hj]
  locations := h.locations

theorem Indistinguishable.setBits (h : Indistinguishable s t) (ls : List Nat) :
    Indistinguishable (s.setBits ls) (t.setBits ls) := by
  induction ls generalizing s t with
  | nil => exact h
  | cons l ls ih => exact ih (h.setBit l)

/-- The words and elements of a new filter are zero, whatever was there. -/
theorem Indistinguishable.construct (h : Indistinguishable s t) : Indistinguishable s.construct t.construct where
  rest := by obtain ⟨bkt, loc, epoch, rfl⟩ := h.eq_storage; rfl
  words j hj := by
    have hj' : j < roundUp32 s.nb / 32 := Nat.lt_of_lt_of_le hj (Nat.div_le_div_right (Nat.mod_le _ _))
    rw [State.construct_bktWord, State.construct_bktWord, ← h.requests_eq.1, if_pos hj', if_pos hj']
  locations i hi := by
    have hi' : i < s.nh := State.construct_k_toNat (s := s) ▸ hi
    rw [State.construct_locWord, State.construct_locWord, ← h.requests_eq.2.1, if_pos hi', if_pos hi']

/-- After a reset no word and no element is reachable. -/
theorem Indistinguishable.takeReset (h : Indistinguishable s t) : Indistinguishable (takeReset s) (takeReset t) where
  rest := by obtain ⟨bkt, loc, epoch, rfl⟩ := h.eq_storage; rfl
  words j hj := by simp [Machine.takeReset, State.resetOf] at hj
  locations i hi := by simp [Machine.takeReset, State.resetOf] at hi

/-! ## Instructions and steps -/

/-- Two outcomes are next states that no host can tell apart. -/
def AnswerAlike (o o' : Host.Outcome State Fault Refusal) : Prop :=
  ∃ s' t', o = .next s' ∧ o' = .next t' ∧ Indistinguishable s' t'

theorem Indistinguishable.answerAlike (h : Indistinguishable s t) : AnswerAlike (.next s) (.next t) :=
  ⟨s, t, rfl, rfl, h⟩

theorem Indistinguishable.commandOk_answerAlike (h : Indistinguishable s t) :
    AnswerAlike (commandOk s) (commandOk t) := ((h.set_err .ok).respond .ok).answerAlike

theorem Indistinguishable.commandError_answerAlike (h : Indistinguishable s t) (c : ErrCode) :
    AnswerAlike (commandError c s) (commandError c t) := ((h.set_err c).respond .ok).answerAlike

theorem Indistinguishable.config_answerAlike (h : Indistinguishable s t) :
    AnswerAlike (exec .config s) (exec .config t) := by
  obtain ⟨-, -, hinvalid⟩ := h.requests_eq
  by_cases hv : s.configInvalid
  · rw [execConfig_invalid hv, execConfig_invalid (hinvalid.1 hv)]
    exact h.commandError_answerAlike _
  · rw [execConfig_valid hv, execConfig_valid (mt hinvalid.2 hv)]
    exact h.construct.commandOk_answerAlike

theorem Indistinguishable.add_answerAlike (h : Indistinguishable s t) : AnswerAlike (exec .add s) (exec .add t) := by
  cases hc : s.configured with
  | true =>
    rw [execAdd_configured hc, execAdd_configured (h.configured_eq ▸ hc), ← h.probe.locations_eq]
    exact (h.probe.setBits _).commandOk_answerAlike
  | false =>
    rw [execAdd_unconfigured hc, execAdd_unconfigured (h.configured_eq ▸ hc)]
    exact h.commandError_answerAlike _

/-- Here the invariant is used: TEST looks only at bits below `M`. -/
theorem Indistinguishable.test_answerAlike (h : Indistinguishable s t) (hs : s.Inv) :
    AnswerAlike (exec .test s) (exec .test t) := by
  cases hc : s.configured with
  | true =>
    have hlt : ∀ l ∈ s.probe.locations, l < s.m.toNat := fun _ => State.probe_locations_lt (hs.m_pos hc)
    rw [execTest_configured hc, execTest_configured (h.configured_eq ▸ hc), ← h.probe.locations_eq,
      ← h.probe.allSet_eq (hs.probe hc) hlt]
    exact (h.probe.set_result (s.probe.allSet s.probe.locations)).commandOk_answerAlike
  | false =>
    rw [execTest_unconfigured hc, execTest_unconfigured (h.configured_eq ▸ hc)]
    exact h.commandError_answerAlike _

theorem Indistinguishable.rdLoc_answerAlike (h : Indistinguishable s t) (n : Nat) :
    AnswerAlike (exec (.rdLoc n) s) (exec (.rdLoc n) t) := by
  have hiff : (s.configured = true ∧ n < s.k.toNat) ↔ (t.configured = true ∧ n < t.k.toNat) := by
    rw [h.configured_eq, h.k_eq]
  by_cases hmapped : s.configured = true ∧ n < s.k.toNat
  · rw [exec_rdLoc_mapped hmapped, exec_rdLoc_mapped (hiff.1 hmapped), ← h.locations n hmapped.2]
    exact (h.respond _).answerAlike
  · rw [exec_rdLoc_unmapped hmapped, exec_rdLoc_unmapped (mt hiff.2 hmapped)]
    exact (h.respond _).answerAlike

theorem Indistinguishable.rdBkt_answerAlike (h : Indistinguishable s t) (j : Nat) :
    AnswerAlike (exec (.rdBkt j) s) (exec (.rdBkt j) t) := by
  have hiff : (s.configured = true ∧ j < s.m.toNat / 32) ↔ (t.configured = true ∧ j < t.m.toNat / 32) := by
    rw [h.configured_eq, h.m_eq]
  by_cases hmapped : s.configured = true ∧ j < s.m.toNat / 32
  · rw [exec_rdBkt_mapped hmapped, exec_rdBkt_mapped (hiff.1 hmapped), ← h.words j hmapped.2]
    exact (h.respond _).answerAlike
  · rw [exec_rdBkt_unmapped hmapped, exec_rdBkt_unmapped (mt hiff.2 hmapped)]
    exact (h.respond _).answerAlike

/-- An instruction that works on registers reads and writes none of what may differ; the five others have lemmas. -/
theorem Indistinguishable.exec_answerAlike (h : Indistinguishable s t) (hs : s.Inv) (i : Instr) :
    AnswerAlike (exec i s) (exec i t) := by
  cases i with
  | config => exact h.config_answerAlike
  | add => exact h.add_answerAlike
  | test => exact h.test_answerAlike hs
  | rdLoc n => exact h.rdLoc_answerAlike n
  | rdBkt j => exact h.rdBkt_answerAlike j
  | _ =>
    obtain ⟨bkt, loc, epoch, rfl⟩ := h.eq_storage
    exact ⟨_, _, rfl, rfl, rfl, h.words, h.locations⟩

/-- Two states that no host can tell apart take the same event, and perform it alike. -/
theorem Indistinguishable.step_answerAlike (h : Indistinguishable s t) (hs : s.Inv) :
    AnswerAlike (step s) (step t) := by
  cases hp : s.port with
  | nil =>
    rw [step_idle hp, step_idle (h.port_eq ▸ hp)]
    exact h.answerAlike
  | cons e rest =>
    have hp' : t.port = e :: rest := h.port_eq ▸ hp
    have htaken := h.set_port rest
    cases e with
    | reset a =>
      rw [step_reset hp, step_reset hp']
      exact htaken.takeReset.answerAlike
    | txn x =>
      cases hd : decode x with
      | instr i =>
        rw [step_instr hp hd, step_instr hp' hd]
        exact htaken.exec_answerAlike (hs.of_keepsFilter (keepsFilter_port s rest)) i
      | busError c =>
        rw [step_busError hp hd, step_busError hp' hd]
        exact (htaken.respond _).answerAlike
      | illegalCommand c =>
        rw [step_illegal hp hd, step_illegal hp' hd]
        exact htaken.commandError_answerAlike _

/-- Settles O50: the steps of the two states have next states that no host can tell apart, and so the same response. -/
theorem unreachableStorageIsUnobservable : Obligations.UnreachableStorageIsUnobservable := by
  intro s t s' hs _ h hstep
  obtain ⟨u, t', hu, ht', halike⟩ := h.step_answerAlike hs
  cases hu.symm.trans hstep
  exact ⟨t', ht', halike, halike.resp_eq⟩

end Sys2Proof.Machine
end

section
/-! PROOFS. Which transactions decode to an instruction, and what a step then does: nothing but an instruction's own
transaction decodes to it, the protection bits are not looked at, and the host's addresses are offsets from the base
(R201, R206, R207, R217, R302, R306, R630). -/

namespace Sys2Proof.Machine

variable {x : Txn} {i : Instr} {r : Reg} {dir : Dir} {a : Nat} {cw : Word}

/-- `x` is the transaction of the well-formed instruction `i`, or, for a key byte, one that differs from it in the
ignored bits 31:8 of the word (R302). -/
def CarriesInstr (x : Txn) (i : Instr) : Prop :=
  i.wellFormed = true ∧
  (x = encode i ∨ ∃ b d, i = .kb b ∧ x = Txn.wordWrite 0x024#32 d ∧ b = BitVec.ofNat 8 (d.toNat % 256))

/-- The only words that are commands are the four words the encoder writes (R301, R303, R304). -/
theorem cmd_carriesInstr (h : decodeCommand cw = .instr i) : CarriesInstr (Txn.cmd cw) i := by
  obtain ⟨rfl, hd⟩ | ⟨rfl, hd⟩ | ⟨rfl, hd⟩ | ⟨rfl, hd⟩ | ⟨-, c, hd⟩ := decodeCommand_cases cw
  all_goals cases hd.symm.trans h
  all_goals exact ⟨rfl, .inl rfl⟩

/-- A register access that decodes to an instruction: apart from the words of CMD and KEYBYTE, the register and the
direction determine the instruction and its operand. -/
theorem reg_carriesInstr (h : decodeReg r dir = .instr i) :
    CarriesInstr ⟨dir, BitVec.ofNat 32 r.offset, 4, 0b1111#4, 0⟩ i := by
  cases dir with
  | read => cases r <;> cases h <;> exact ⟨rfl, .inl rfl⟩
  | write d =>
    cases r with
    | cmd => exact cmd_carriesInstr h
    | keybyte => cases h; exact ⟨rfl, .inr ⟨keyData d, d, rfl, rfl, keyData_eq d⟩⟩
    | numbits => cases h; exact ⟨rfl, .inl rfl⟩
    | numhashes => cases h; exact ⟨rfl, .inl rfl⟩
    | _ => cases h

/-- A window access that decodes to an instruction is an aligned read of a word inside its window, and its index gives
the offset back (R204 to R206, R305). -/
theorem window_carriesInstr (ha : a % 4 = 0) (h : decodeWindow a dir = .instr i) :
    CarriesInstr ⟨dir, BitVec.ofNat 32 a, 4, 0b1111#4, 0⟩ i := by
  cases dir with
  | read =>
    rw [decodeWindow_eq] at h
    split at h
    · cases h
      have hindex : (a - 4096) / 4 < 1024 := by omega
      have hoff : a = 4096 + 4 * ((a - 4096) / 4) := by omega
      exact ⟨decide_eq_true hindex, .inl (congrArg (fun o => Txn.wordRead (BitVec.ofNat 32 o)) hoff)⟩
    split at h
    · cases h
      have hindex : (a - 268435456) / 4 < 2 ^ 26 := by omega
      have hoff : a = 268435456 + 4 * ((a - 268435456) / 4) := by omega
      exact ⟨decide_eq_true hindex, .inl (congrArg (fun o => Txn.wordRead (BitVec.ofNat 32 o)) hoff)⟩
    · cases h
  | write d =>
    rw [decodeWindow_eq] at h
    split at h
    · cases h
    split at h <;> cases h

/-- A whole-word access without its protection bits, with its offset as a number. -/
theorem txn_eq_of_word (hsize : x.size = 4) (hmask : x.byteEnables = 0b1111#4) :
    { x with attrs := 0 } = (⟨x.dir, BitVec.ofNat 32 x.addr.toNat, 4, 0b1111#4, 0⟩ : Txn) := by
  obtain ⟨dir, addr, size, mask, attrs⟩ := x
  obtain rfl : size = 4 := hsize
  obtain rfl : mask = 0b1111#4 := hmask
  simp

theorem carriesInstr_of_decode (h : decode x = .instr i) : CarriesInstr { x with attrs := 0 } i := by
  obtain ⟨hsize, hmask, halign⟩ := word_of_decode_instr h
  rw [txn_eq_of_word hsize hmask]
  obtain ⟨r, hr⟩ | hwin := reg_or_window halign
  · rw [decode_reg hsize hmask hr] at h
    exact hr ▸ reg_carriesInstr h
  · rw [decode_window hsize hmask halign hwin] at h
    exact window_carriesInstr halign h

/-- Settles O2: what decodes to an instruction carries it, for an access to a register and for one to a window. -/
theorem onlyEncodingsDecodeToInstructions : Obligations.OnlyEncodingsDecodeToInstructions :=
  fun _ _ => carriesInstr_of_decode

/-! ## Steps and the host's addresses -/

/-- The protection bits are not part of what a transaction asks for (R217, R630). -/
theorem decode_with_attrs (x : Txn) (n : Nat) : decode { x with attrs := n } = decode x := rfl

/-- Settles O5: a step looks at a transaction through the decoder only. -/
theorem attributesAreIgnored : Obligations.AttributesAreIgnored := by
  intro s x rest n
  simp only [step, State.nextEvent, decode_with_attrs]

/-- Settles O6: subtracting the base again leaves the offset, also where the sum has wrapped. -/
theorem hostAddressIsBasePlusOffset : Obligations.HostAddressIsBasePlusOffset := by
  intro p o v
  have hoff : p.bfeBase + o - p.bfeBase = o := add_sub_cancel_left p.bfeBase o
  exact ⟨congrArg (Txn.mk .read · 4 0b1111#4 0) hoff, congrArg (Txn.mk (.write v) · 4 0b1111#4 0) hoff⟩

/-- Settles O7, by the rule of a step whose transaction decodes to an instruction. -/
theorem stepRunsTheDecodedInstruction : Obligations.StepRunsTheDecodedInstruction :=
  fun _ _ _ _ => step_instr

end Sys2Proof.Machine
end

section
/-! PROOFS. The key bytes a host writes are hashed one after another (R214, R400, R402, R404). -/

namespace Sys2Proof.Machine

variable {s t : State} {b : Byte} {rest : List Event} {n : Nat}

/-- A run of one step more. -/
theorem run_succ_of_step (h : step s = .next t) :
    Host.Core.run Sys2Proof.core (n + 1) s = Host.Core.run Sys2Proof.core n t := by
  have hcore : Sys2Proof.core.step s = .next t := h
  simp only [Host.Core.run, hcore]

theorem keyData_setWidth (b : Byte) : keyData (b.setWidth 32) = b := by
  apply BitVec.eq_of_toNat_eq
  have := b.isLt
  simp [keyData]
  omega

theorem decode_encode_kb (b : Byte) : decode (encode (.kb b)) = .instr (.kb b) := by
  rw [encode, decode_wordWrite_keybyte, keyData_setWidth]

/-- Performing one KB write. -/
theorem step_kb (h : s.port = .txn (encode (.kb b)) :: rest) :
    step s = .next { s with port := rest, acc := hashStep s.par s.acc b, resp := some .ok } := by
  rw [step_instr h (decode_encode_kb b)]
  rfl

/-- Settles O23, by induction on the bytes: the first write absorbs the first byte, and the others go on from there. -/
theorem keyBytesHashInWriteOrder : Obligations.KeyBytesHashInWriteOrder := by
  intro v
  induction v with
  | nil =>
    rintro s rest hport
    obtain rfl : s.port = rest := hport
    exact ⟨s.resp, rfl⟩
  | cons b v ih =>
    intro s rest hport
    obtain ⟨r, hr⟩ := ih
      { s with port := eventsOf (keyOps v) ++ rest, acc := hashStep s.par s.acc b, resp := some .ok } rest rfl
    exact ⟨r, (run_succ_of_step (step_kb hport)).trans hr⟩

end Sys2Proof.Machine
end

section
/-! PROOFS. Reads: which elements of the two windows are mapped, and that a read, answered with a word or with ERROR,
changes nothing but the response (R204, R205, R209, R481, R482). -/

namespace Sys2Proof.Machine

variable {s : State} {x : Txn} {i : Instr}

/-- Settles O45, from the two cases of the meaning. -/
theorem locReadIsMappedBelowK : Obligations.LocReadIsMappedBelowK := by
  refine fun i s => ⟨exec_rdLoc_mapped, fun hunmapped => exec_rdLoc_unmapped ?_⟩
  rintro ⟨hc, hi⟩
  obtain hu | hk := hunmapped
  · exact Bool.noConfusion (hu.symm.trans hc)
  · omega

/-- Settles O46, from the two cases of the meaning. -/
theorem bktReadIsMappedBelowM : Obligations.BktReadIsMappedBelowM := by
  refine fun j s => ⟨exec_rdBkt_mapped, fun hunmapped => exec_rdBkt_unmapped ?_⟩
  rintro ⟨hc, hj⟩
  obtain hu | hm := hunmapped
  · exact Bool.noConfusion (hu.symm.trans hc)
  · omega

/-- A read is never taken for a command: only a write to CMD is looked at as one (R301). -/
theorem decode_read_ne_illegalCommand (hx : x.dir = .read) (c : IllegalCause) : decode x ≠ .illegalCommand c := by
  intro h
  by_cases hword : x.size = 4 ∧ x.byteEnables = 0b1111#4 ∧ x.addr.toNat % 4 = 0
  · obtain ⟨hsize, hmask, halign⟩ := hword
    obtain ⟨r, hr⟩ | hwin := reg_or_window halign
    · rw [decode_reg hsize hmask hr, hx] at h
      cases r <;> cases h
    · rw [decode_window hsize hmask halign hwin, hx, decodeWindow_eq] at h
      split at h
      · cases h
      split at h <;> cases h
  · obtain ⟨c', hc'⟩ := decode_not_word (x := x) (by tauto)
    cases hc'.symm.trans h

/-- A read decodes only to instructions whose own transaction is a read. -/
theorem encode_dir_of_decode_read (hx : x.dir = .read) (h : decode x = .instr i) : (encode i).dir = .read := by
  obtain ⟨-, he | ⟨b, d, -, he, -⟩⟩ := carriesInstr_of_decode h
  · have hdir := congrArg Txn.dir he
    exact hdir.symm.trans hx
  · have hdir := congrArg Txn.dir he
    cases hx.symm.trans hdir

/-- An instruction whose transaction is a read only gives a response, and the response depends neither on the events
that wait nor on the response before. -/
theorem exec_read (h : (encode i).dir = .read) (s : State) :
    ∃ r, ∀ port resp,
      exec i { s with port := port, resp := resp } = .next ({ s with port := port, resp := resp }.respond r) := by
  cases i with
  | rdLoc n =>
    by_cases hmapped : s.configured = true ∧ n < s.k.toNat
    · exact ⟨.okData (s.locWord n), fun _ _ => exec_rdLoc_mapped hmapped⟩
    · exact ⟨.error, fun _ _ => exec_rdLoc_unmapped hmapped⟩
  | rdBkt j =>
    by_cases hmapped : s.configured = true ∧ j < s.m.toNat / 32
    · exact ⟨.okData (s.bktWord j), fun _ _ => exec_rdBkt_mapped hmapped⟩
    · exact ⟨.error, fun _ _ => exec_rdBkt_unmapped hmapped⟩
  | config | add | test | keyreset | kb | wrNumbits | wrNumhashes => cases h
  | rdId => exact ⟨.okData idWord, fun _ _ => rfl⟩
  | rdMmax => exact ⟨.okData (BitVec.ofNat 32 s.par.mMax), fun _ _ => rfl⟩
  | rdKmax => exact ⟨.okData (BitVec.ofNat 32 s.par.kMax), fun _ _ => rfl⟩
  | rdNumbits => exact ⟨.okData s.numbits, fun _ _ => rfl⟩
  | rdNumhashes => exact ⟨.okData s.numhashes, fun _ _ => rfl⟩
  | rdM => exact ⟨.okData s.m, fun _ _ => rfl⟩
  | rdK => exact ⟨.okData s.k, fun _ _ => rfl⟩
  | rdStatus => exact ⟨.okData s.statusWord, fun _ _ => rfl⟩
  | rdAcc => exact ⟨.okData s.acc, fun _ _ => rfl⟩
  | rdHashA => exact ⟨.okData s.hashA, fun _ _ => rfl⟩
  | rdHashB => exact ⟨.okData s.hashB, fun _ _ => rfl⟩

/-- A step that performs a read, whether the decoder rejects it or an instruction answers it. -/
theorem step_read (hx : x.dir = .read) (s : State) :
    ∃ r, ∀ rest q,
      step { s with port := .txn x :: rest, resp := q } = .next { s with port := rest, resp := some r } := by
  cases hd : decode x with
  | instr i =>
    obtain ⟨r, hr⟩ := exec_read (encode_dir_of_decode_read hx hd) s
    exact ⟨r, fun rest q => (step_instr rfl hd).trans (hr rest q)⟩
  | busError c => exact ⟨.error, fun _ _ => step_busError rfl hd⟩
  | illegalCommand c => exact absurd hd (decode_read_ne_illegalCommand hx c)

/-- Settles O47: both steps give the response that the transaction and the rest of the state determine. -/
theorem readsHaveNoSideEffect : Obligations.ReadsHaveNoSideEffect := by
  intro s x rest rest' q hx
  obtain ⟨r, hr⟩ := step_read hx s
  exact ⟨_, _, hr rest s.resp, hr rest' q, rfl, rfl⟩

end Sys2Proof.Machine
end

section
/-! PROOFS. The byte image of a filter, by bucket words and by filter bits (R213). -/

namespace Sys2Proof.Machine

variable {s : State} {e j n : Nat}

@[simp] theorem State.exportImage_length (s : State) : s.exportImage.length = 4 * (s.m.toNat / 32) := by
  simp [State.exportImage]

theorem State.exportImage_getElem? (he : e < 4 * (s.m.toNat / 32)) : s.exportImage[e]? = some (s.exportByte e) := by
  simp [State.exportImage, he]

/-- Byte `4*j + n` is cut from word `j`. -/
theorem State.exportByte_of_word (hn : n < 4) : s.exportByte (4 * j + n) = (s.bktWord j).extractLsb' (8 * n) 8 := by
  unfold State.exportByte
  rw [show (4 * j + n) / 4 = j by omega, show (4 * j + n) % 4 = n by omega]

/-- Bit `n` of byte `e` is filter bit `8*e + n`. -/
theorem State.exportByte_getLsbD (hn : n < 8) : (s.exportByte e).getLsbD n = s.filterBit (8 * e + n) := by
  unfold State.exportByte State.filterBit
  rw [BitVec.getLsbD_extractLsb', decide_eq_true hn, Bool.true_and, show (8 * e + n) / 32 = e / 4 by omega,
    show (8 * e + n) % 32 = 8 * (e % 4) + n by omega]

/-- The four bytes of a word, in the image's order. -/
theorem State.bytesOf_bktWord (s : State) (j : Nat) :
    bytesOf (s.bktWord j) = (List.range 4).map fun n => s.exportByte (4 * j + n) :=
  List.map_congr_left (l := List.range 4) fun _ hn => (State.exportByte_of_word (List.mem_range.1 hn)).symm

/-- The bytes of the first `n` words are the words' bytes in order, by induction on the number of words. -/
theorem State.exportBytes_eq_flatMap (s : State) (n : Nat) :
    (List.range (4 * n)).map s.exportByte = (List.range n).flatMap fun j => bytesOf (s.bktWord j) := by
  induction n with
  | zero => rfl
  | succ n ih =>
    rw [Nat.mul_succ, List.range_add, List.map_append, ih, List.map_map, List.range_succ (n := n), List.flatMap_append,
      List.flatMap_singleton, State.bytesOf_bktWord]
    rfl

/-- Settles O48: a byte of the image by its word and by its filter bits, and the image by its words. -/
theorem exportImageIsLittleEndian : Obligations.ExportImageIsLittleEndian := by
  intro s
  refine ⟨s.exportImage_length, fun j n hj hn => ?_, fun e n he hn => ?_, s.exportBytes_eq_flatMap _⟩
  · refine ⟨_, State.exportImage_getElem? (by omega), ?_⟩
    rw [State.exportByte_of_word hn, BitVec.extractLsb'_toNat, Nat.shiftRight_eq_div_pow]
  · exact ⟨_, State.exportImage_getElem? he, State.exportByte_getLsbD hn⟩

end Sys2Proof.Machine
end

section
/-! PROOFS. The encoder's transactions and the illegal command words: an instruction's own transaction decodes to it, a
command word that is no command sets STATUS.ERR, and bits 31:8 of a key-byte word are dropped (R207, R300 to
R305, R308). -/

namespace Sys2Proof.Machine

variable {s : State} {i : Instr} {x : Txn} {cw : Word} {a : Nat} {rest : List Event}

/-! ## Decoding what the encoder writes -/

/-- A whole-word read of an aligned offset above the registers is looked up in the windows by that offset. -/
theorem decode_wordRead_window (hlt : a < 2 ^ 32) (halign : a % 4 = 0) (hwin : 0x034 ≤ a) :
    decode (Txn.wordRead (BitVec.ofNat 32 a)) = decodeWindow a .read := by
  have haddr : (Txn.wordRead (BitVec.ofNat 32 a)).addr.toNat = a :=
    (BitVec.toNat_ofNat a 32).trans (Nat.mod_eq_of_lt hlt)
  rw [decode_window rfl rfl (haddr.symm ▸ halign) (haddr.symm ▸ hwin), haddr]
  rfl

theorem isCommand_cmd (cw : Word) : IsCommand (Txn.cmd cw) cw := ⟨rfl, rfl, rfl, rfl⟩

/-- A write to CMD is looked up by its word (R301). -/
theorem decode_cmd (cw : Word) : decode (Txn.cmd cw) = decodeCommand cw := decode_of_isCommand (isCommand_cmd cw)

/-- The probe window's words decode to their index (R204, R305). -/
theorem decode_encode_rdLoc {n : Nat} (hn : n < 1024) : decode (encode (.rdLoc n)) = .instr (.rdLoc n) := by
  have henc : encode (.rdLoc n) = .wordRead (BitVec.ofNat 32 (4096 + 4 * n)) := rfl
  have hin : 4096 ≤ 4096 + 4 * n ∧ 4096 + 4 * n < 8192 := by omega
  have hindex : (4096 + 4 * n - 4096) / 4 = n := by omega
  rw [henc, decode_wordRead_window (by omega) (by omega) (by omega), decodeWindow_eq, if_pos hin, hindex]

/-- The bucket window's words decode to their index: they lie above the probe window (R205, R305). -/
theorem decode_encode_rdBkt {j : Nat} (hj : j < 2 ^ 26) : decode (encode (.rdBkt j)) = .instr (.rdBkt j) := by
  have henc : encode (.rdBkt j) = .wordRead (BitVec.ofNat 32 (268435456 + 4 * j)) := rfl
  have hin : 268435456 ≤ 268435456 + 4 * j ∧ 268435456 + 4 * j < 536870912 := by omega
  have hindex : (268435456 + 4 * j - 268435456) / 4 = j := by omega
  rw [henc, decode_wordRead_window (by omega) (by omega) (by omega), decodeWindow_eq, if_neg (by omega), if_pos hin,
    hindex]

/-- The decoder undoes the encoder: a command's word is one of the four of R303, a register is found by its offset, and
a window's index by its place in the window. -/
theorem decode_encode (h : i.wellFormed = true) : decode (encode i) = .instr i := by
  cases i with
  | config => exact decode_cmd 1#32
  | add => exact decode_cmd 2#32
  | test => exact decode_cmd 3#32
  | keyreset => exact decode_cmd 4#32
  | kb b => exact decode_encode_kb b
  | wrNumbits n => exact decode_reg (r := .numbits) rfl rfl rfl
  | wrNumhashes n => exact decode_reg (r := .numhashes) rfl rfl rfl
  | rdId => exact decode_reg (r := .id) rfl rfl rfl
  | rdMmax => exact decode_reg (r := .mmax) rfl rfl rfl
  | rdKmax => exact decode_reg (r := .kmax) rfl rfl rfl
  | rdNumbits => exact decode_reg (r := .numbits) rfl rfl rfl
  | rdNumhashes => exact decode_reg (r := .numhashes) rfl rfl rfl
  | rdM => exact decode_reg (r := .m) rfl rfl rfl
  | rdK => exact decode_reg (r := .k) rfl rfl rfl
  | rdStatus => exact decode_reg (r := .status) rfl rfl rfl
  | rdAcc => exact decode_reg (r := .acc) rfl rfl rfl
  | rdHashA => exact decode_reg (r := .hashA) rfl rfl rfl
  | rdHashB => exact decode_reg (r := .hashB) rfl rfl rfl
  | rdLoc n => exact decode_encode_rdLoc (of_decide_eq_true h)
  | rdBkt j => exact decode_encode_rdBkt (of_decide_eq_true h)

/-- Settles O1: the decoder undoes the encoder, instruction by instruction. -/
theorem decodeOfEncodeIsTheInstruction : Obligations.DecodeOfEncodeIsTheInstruction :=
  fun _ => decode_encode

/-! ## Command words and key-byte words -/

/-- A word with a reserved bit set, or with an OPC that R303 does not list, is none of the four commands (R304). -/
theorem decodeCommand_illegal (h : cw.toNat / 256 ≠ 0 ∨ ¬ (1 ≤ cw.toNat % 256 ∧ cw.toNat % 256 ≤ 4)) :
    ∃ c, decodeCommand cw = .illegalCommand c := by
  obtain ⟨rfl, -⟩ | ⟨rfl, -⟩ | ⟨rfl, -⟩ | ⟨rfl, -⟩ | ⟨-, hc⟩ := decodeCommand_cases cw
  case inr.inr.inr.inr => exact hc
  all_goals exact absurd h (by decide)

/-- Performing an illegal command word. -/
theorem step_illegalWord (hport : s.port = .txn x :: rest) (hx : IsCommand x cw)
    (h : cw.toNat / 256 ≠ 0 ∨ ¬ (1 ≤ cw.toNat % 256 ∧ cw.toNat % 256 ≤ 4)) :
    step s = .next { s with port := rest, err := .illegalCmd, resp := some .ok } := by
  obtain ⟨c, hc⟩ := decodeCommand_illegal h
  exact step_illegal hport ((decode_of_isCommand hx).trans hc)

/-- Settles O11: an illegal word decodes to no command, whichever of its two fields is at fault; 0x102 has a reserved
bit set. -/
theorem illegalCommandWordsOnlySetErr : Obligations.IllegalCommandWordsOnlySetErr :=
  ⟨fun _ _ _ _ => step_illegalWord,
    fun _ _ hport => step_illegalWord hport (isCommand_cmd _) (.inl (by decide))⟩

/-- Settles O22: the word decodes to KB of its low byte, which has no failure branch. -/
theorem keyByteWriteNeverFailsAndIgnoresHighBits : Obligations.KeyByteWriteNeverFailsAndIgnoresHighBits := by
  intro s d rest hport
  rw [step_instr hport (decode_wordWrite_keybyte d), keyData_eq]
  rfl

end Sys2Proof.Machine
end

section
/-! PROOFS. The rows of the opcode table do not overlap: a criterion on two rows that no transaction fits both, and that
the table's rows meet it in pairs (R207, R303, R308). -/

namespace Sys2Proof.Machine

variable {r r' : TableRow} {x : Txn} {w : Word}

/-- The values of the two rows differ in a bit that both look at. -/
def valuesDiffer (r r' : TableRow) : Bool := decide (r.value &&& r'.mask ≠ r'.value &&& r.mask)

/-- Why no transaction is described by both rows: a differing bit of the word both look at, opposite directions, or, for
a command and an offset, that the offset row's bits are not those of CMD. -/
def rowsApart (r r' : TableRow) : Bool :=
  match r.matchOn, r'.matchOn with
  | .cmdData, .cmdData => valuesDiffer r r'
  | .cmdData, .offset => !r'.fits 0x020#32
  | .offset, .cmdData => !r.fits 0x020#32
  | .offset, .offset => r.isWrite != r'.isWrite || valuesDiffer r r'

/-- One word fits two rows only if their values agree in the bits that both look at. -/
theorem not_valuesDiffer_of_fits (h : r.fits w = true) (h' : r'.fits w = true) : valuesDiffer r r' = false := by
  obtain hw : w &&& r.mask = r.value := of_decide_eq_true h
  obtain hw' : w &&& r'.mask = r'.value := of_decide_eq_true h'
  have hagree : r.value &&& r'.mask = r'.value &&& r.mask := by rw [← hw, ← hw']; ac_rfl
  simp [valuesDiffer, hagree]

/-- A row of commands describes the writes to CMD of the words that fit it. -/
theorem describes_cmdData (hm : r.matchOn = .cmdData) (h : r.describes x = true) :
    x.addr = 0x020#32 ∧ ∃ d, x.dir = .write d ∧ r.fits d = true := by
  cases hd : x.dir with
  | read => simp [TableRow.describes, hm, hd] at h
  | write d => simpa [TableRow.describes, hm, hd] using h

/-- A row of offsets describes the accesses of its direction to the offsets that fit it. -/
theorem describes_offset (hm : r.matchOn = .offset) (h : r.describes x = true) :
    (r.isWrite = true ↔ Txn.isWrite x) ∧ r.fits x.addr = true := by
  cases hd : x.dir with
  | read => simpa [TableRow.describes, hm, hd, Txn.isWrite] using h
  | write d => simpa [TableRow.describes, hm, hd, Txn.isWrite] using h

/-- The criterion is sound: a transaction that two rows describe rules out each reason for them to be apart. -/
theorem rowsApart_eq_false (h : r.describes x = true) (h' : r'.describes x = true) : rowsApart r r' = false := by
  unfold rowsApart
  split
  next hm hm' =>
    obtain ⟨-, d, hd, hfits⟩ := describes_cmdData hm h
    obtain ⟨-, d', hd', hfits'⟩ := describes_cmdData hm' h'
    cases hd.symm.trans hd'
    exact not_valuesDiffer_of_fits hfits hfits'
  next hm hm' =>
    obtain ⟨haddr, -⟩ := describes_cmdData hm h
    obtain ⟨-, hfits'⟩ := describes_offset hm' h'
    rw [← haddr, hfits', Bool.not_true]
  next hm hm' =>
    obtain ⟨-, hfits⟩ := describes_offset hm h
    obtain ⟨haddr, -⟩ := describes_cmdData hm' h'
    rw [← haddr, hfits, Bool.not_true]
  next hm hm' =>
    obtain ⟨hdir, hfits⟩ := describes_offset hm h
    obtain ⟨hdir', hfits'⟩ := describes_offset hm' h'
    have hwrite : r.isWrite = r'.isWrite := Bool.eq_iff_iff.2 (hdir.trans hdir'.symm)
    rw [hwrite, bne_self_eq_false, not_valuesDiffer_of_fits hfits hfits', Bool.or_false]

/-- No transaction is described by both rows. -/
def RowsDisjoint (r r' : TableRow) : Prop := ∀ x : Txn, ¬ (r.describes x = true ∧ r'.describes x = true)

theorem rowsDisjoint_symm : Std.Symm RowsDisjoint := ⟨fun _ _ h x hx => h x hx.symm⟩

theorem rowsDisjoint_of_apart (h : rowsApart r r' = true) : RowsDisjoint r r' := by
  rintro x ⟨hr, hr'⟩
  exact Bool.noConfusion ((rowsApart_eq_false hr hr').symm.trans h)

/-- The finite part: the criterion on the 190 pairs of the table's rows. -/
theorem opcodeTable_apart : opcodeTable.Pairwise fun r r' => rowsApart r r' = true := by decide

/-- Settles O3: rows that stand apart in the table are disjoint, so two that describe one transaction are the same. -/
theorem opcodeTableRowsAreDisjoint : Obligations.OpcodeTableRowsAreDisjoint := by
  refine ⟨rfl, fun r hr r' hr' x h h' => ?_⟩
  have hdisjoint : opcodeTable.Pairwise RowsDisjoint := opcodeTable_apart.imp rowsDisjoint_of_apart
  have hsymm := rowsDisjoint_symm
  by_contra hne
  exact hdisjoint.forall hr hr' hne x ⟨h, h'⟩

end Sys2Proof.Machine
end

section
/-! PROOFS. The accumulator: what KB and KEYRESET leave, the worked values of the hash, and which events change ACC
(R400 to R404, R410, R412, R602). -/

namespace Sys2Proof.Machine

variable {s t : State} {i : Instr} {b : Byte} {p q : Params}

/-! ## KB and KEYRESET -/

theorem exec_kb : exec (.kb b) s = .next ({ s with acc := hashStep s.par s.acc b }.respond .ok) := rfl

theorem exec_keyreset : exec .keyreset s = .next ({ s with acc := s.par.hashInit, err := .ok }.respond .ok) := rfl

theorem hashStep_toNat (p : Params) (acc : Word) (b : Byte) :
    (hashStep p acc b).toNat = (acc.toNat * p.hashPrime.toNat + b.toNat) % 2 ^ 32 :=
  BitVec.toNat_ofNat _ _

/-- Settles O21: the word is that of the hash step. -/
theorem kbAbsorbsOneByte : Obligations.KbAbsorbsOneByte :=
  fun b s => ⟨hashStep s.par s.acc b, hashStep_toNat s.par s.acc b, exec_kb⟩

/-- Settles O24: KEYRESET has no failure branch. -/
theorem keyresetDiscardsTheKey : Obligations.KeyresetDiscardsTheKey := fun _ => exec_keyreset

/-! ## The worked values -/

/-- The hash depends on `HASH_INIT` and `HASH_PRIME` only. -/
theorem hashOf_congr (hinit : p.hashInit = q.hashInit) (hprime : p.hashPrime = q.hashPrime) : hashOf p = hashOf q := by
  have hstep : hashStep p = hashStep q := by
    funext acc b
    rw [hashStep, hashStep, hprime]
  funext v
  rw [hashOf, hashOf, hashFrom, hashFrom, hinit, hstep]

/-- With the default step hash, so does the rehash. -/
theorem rehash_congr (hinit : p.hashInit = q.hashInit) (hprime : p.hashPrime = q.hashPrime)
    (hp : p.rehashFn = .default) (hq : q.rehashFn = .default) : rehash p = rehash q := by
  funext a
  simp only [rehash, hp, hq, hashOf_congr hinit hprime]

/-- Settles O26: the parameters hash and rehash as the default ones do, and with those each key's values compute. -/
theorem workedHashValues : Obligations.WorkedHashValues := by
  intro p hinit hprime hfn
  have hhash : hashOf p = hashOf defaultParams := hashOf_congr hinit hprime
  have hrehash : rehash p = rehash defaultParams := rehash_congr hinit hprime hfn rfl
  rw [hhash, hrehash]
  refine ⟨?empty, ?a, ?apple, ?banana⟩
  all_goals decide

/-! ## Who writes ACC -/

/-- The instructions that discard the absorbed key: KEYRESET, and each of the other commands where it succeeds
(R404). -/
def DiscardsKey (s : State) (i : Instr) : Prop :=
  i = .keyreset ∨ (i = .config ∧ ¬ s.configInvalid) ∨ ((i = .add ∨ i = .test) ∧ s.configured = true)

theorem exec_acc_of_discardsKey (hi : DiscardsKey s i) (h : exec i s = .next t) : t.acc = s.par.hashInit := by
  obtain rfl | ⟨rfl, hv⟩ | ⟨rfl | rfl, hc⟩ := hi
  · rw [exec_keyreset] at h; cases h; rfl
  · rw [execConfig_valid hv] at h; cases h; rfl
  · rw [execAdd_configured hc] at h; cases h; simp
  · rw [execTest_configured hc] at h; cases h; rfl

/-- An instruction that absorbs no byte and discards no key, so also a command that fails, keeps ACC. -/
theorem exec_keeps_acc (hkb : ∀ b, i ≠ .kb b) (hi : ¬ DiscardsKey s i) (h : exec i s = .next t) : t.acc = s.acc := by
  obtain ⟨r, rfl⟩ | ⟨c, rfl⟩ | ⟨n, -, rfl⟩ | ⟨n, -, rfl⟩ | ⟨b, hb, -⟩ | ⟨hk, -⟩ | ⟨hconfig, hv, -⟩ | ⟨hadd, hc, -⟩ |
    ⟨htest, hc, -⟩ := exec_cases h
  · rfl
  · rfl
  · rfl
  · rfl
  · exact absurd hb (hkb b)
  · exact absurd (.inl hk) hi
  · exact absurd (.inr (.inl ⟨hconfig, hv⟩)) hi
  · exact absurd (.inr (.inr ⟨.inl hadd, hc⟩)) hi
  · exact absurd (.inr (.inr ⟨.inr htest, hc⟩)) hi

section Step

variable {x : Txn} {rest : List Event}

theorem step_acc_of_kb (hp : s.port = .txn x :: rest) (hd : decode x = .instr (.kb b)) (h : step s = .next t) :
    t.acc = hashStep s.par s.acc b := by
  rw [step_instr hp hd, exec_kb] at h
  cases h
  rfl

theorem step_acc_of_discardsKey (hp : s.port = .txn x :: rest) (hd : decode x = .instr i) (hi : DiscardsKey s i)
    (h : step s = .next t) : t.acc = s.par.hashInit := by
  rw [step_instr hp hd] at h
  exact exec_acc_of_discardsKey (s := { s with port := rest }) hi h

/-- A transaction that carries no such instruction, so also one that is rejected, keeps ACC. -/
theorem step_keeps_acc (hp : s.port = .txn x :: rest) (hkb : ∀ b, decode x ≠ .instr (.kb b))
    (hi : ∀ i, decode x = .instr i → ¬ DiscardsKey s i) (h : step s = .next t) : t.acc = s.acc := by
  cases hd : decode x with
  | instr i =>
    rw [step_instr hp hd] at h
    have hne : ∀ b, i ≠ .kb b := fun b hb => hkb b (hb ▸ hd)
    exact exec_keeps_acc (s := { s with port := rest }) hne (hi i hd) h
  | busError c => rw [step_busError hp hd] at h; cases h; rfl
  | illegalCommand c => rw [step_illegal hp hd] at h; cases h; rfl

end Step

/-- Settles O25, from what a step does to ACC by what its transaction carries. -/
theorem accChangesOnlyWhereTheSpecSays : Obligations.AccChangesOnlyWhereTheSpecSays := by
  intro s t h
  refine ⟨fun a rest hp => ?reset, fun x rest hp => ⟨fun b hd => step_acc_of_kb hp hd h, fun hdis => ?discard,
    fun hkb hk hconfig hprobe => step_keeps_acc hp hkb ?keep h⟩⟩
  case reset =>
    rw [step_reset hp] at h
    cases h
    rfl
  case discard =>
    obtain hd | ⟨hd, hv⟩ | ⟨hd | hd, hc⟩ := hdis
    · exact step_acc_of_discardsKey hp hd (.inl rfl) h
    · exact step_acc_of_discardsKey hp hd (.inr (.inl ⟨rfl, hv⟩)) h
    · exact step_acc_of_discardsKey hp hd (.inr (.inr ⟨.inl rfl, hc⟩)) h
    · exact step_acc_of_discardsKey hp hd (.inr (.inr ⟨.inr rfl, hc⟩)) h
  case keep =>
    rintro i hd (rfl | ⟨rfl, hv⟩ | ⟨rfl | rfl, hc⟩)
    · exact hk hd
    · exact hconfig ⟨hd, hv⟩
    · exact hprobe ⟨.inl hd, hc⟩
    · exact hprobe ⟨.inr hd, hc⟩

end Sys2Proof.Machine
end

section
/-! PROOFS. Construction: the rounded capacity, the two forms of the probe-buffer width, and what CONFIG leaves where it
succeeds and where it fails (R422 to R429). -/

namespace Sys2Proof.Machine

variable {s : State}

/-! ## The capacity and the width -/

theorem roundUp32_le {n q : Nat} (hq : q % 32 = 0) (hle : n ≤ q) : roundUp32 n ≤ q := by
  unfold roundUp32; omega

/-- Settles O29: the rounded capacity is a multiple of 32 in `[nb, nb + 32)`, so no smaller multiple reaches `nb`. -/
theorem capacityIsTheLeastMultipleOf32 : Obligations.CapacityIsTheLeastMultipleOf32 := by
  intro nb
  obtain ⟨hmul, hle, hlt⟩ := roundUp32_spec nb
  exact ⟨hmul, hle, fun q hq hqle => roundUp32_le hq hqle, fun hnb => le_antisymm (roundUp32_le hnb le_rfl) hle,
    by omega⟩

theorem locWidth_bytes (m : Nat) : (locWidth m).bytes = if m ≤ 256 then 1 else if m ≤ 65536 then 2 else 4 := by
  unfold locWidth
  split_ifs <;> rfl

/-- `n` bytes hold a position below `m` exactly where `m` is at most `2^(8n)`. -/
theorem clog_bytes_le_iff (m n : Nat) : (Nat.clog 2 m + 7) / 8 ≤ n ↔ m ≤ 2 ^ (8 * n) := by
  rw [← Nat.clog_le_iff_le_pow Nat.one_lt_two]
  omega

/-- Settles O30: one byte holds the positions below 256, and two those below 65536. -/
theorem widthThresholdsAgreeWithTheDerivation : Obligations.WidthThresholdsAgreeWithTheDerivation := by
  intro m _ _
  have hone : (Nat.clog 2 m + 7) / 8 ≤ 1 ↔ m ≤ 256 := clog_bytes_le_iff m 1
  have htwo : (Nat.clog 2 m + 7) / 8 ≤ 2 ↔ m ≤ 65536 := clog_bytes_le_iff m 2
  refine ⟨locWidth_bytes m, ?_⟩
  simp only [hone, htwo, locWidth_bytes]

/-! ## CONFIG -/

/-- The conditions of R426 in terms of the registers: a request is 0 exactly where its register is. -/
theorem State.configInvalid_iff :
    s.configInvalid ↔ s.numbits = 0 ∨ s.numhashes = 0 ∨ s.par.mMax < 32 * ((s.numbits.toNat + 31) / 32) ∨
      s.par.kMax < s.numhashes.toNat := by
  have hnb : s.nb = 0 ↔ s.numbits = 0 := (BitVec.toNat_eq (y := 0)).symm
  have hnh : s.nh = 0 ↔ s.numhashes = 0 := (BitVec.toNat_eq (y := 0)).symm
  exact or_congr hnb (or_congr hnh Iff.rfl)

/-- Settles O28: a request out of range is one of the conditions of R426. -/
theorem failingConfigKeepsTheFilter : Obligations.FailingConfigKeepsTheFilter :=
  fun _ h => execConfig_invalid (State.configInvalid_iff.2 h)

theorem State.construct_k_eq : s.construct.k = s.numhashes := BitVec.eq_of_toNat_eq State.construct_k_toNat

/-- Settles O27: CONFIG leaves the filter that `construct` builds, whose `M` and `K` registers hold the rounded capacity
and the requested probe count. -/
theorem configBuildsAnEmptyFilter : Obligations.ConfigBuildsAnEmptyFilter := by
  intro s hs hnb hnh hmax hkmax
  have hv : ¬ s.configInvalid := by
    simp only [State.configInvalid_iff, not_or, Nat.not_lt]
    exact ⟨hnb, hnh, hmax, hkmax⟩
  have hm : s.construct.m.toNat = roundUp32 s.nb := State.construct_m_toNat hs.legal hv
  refine ⟨_, execConfig_valid hv, hm, State.construct_k_eq, ?width, fun j => ?words, fun i => ?elements, rfl⟩
  case width => exact congrArg locWidth hm.symm
  case words =>
    have hword := s.construct_bktWord j
    rwa [← hm] at hword
  case elements =>
    have helement := s.construct_locWord i
    rwa [← State.construct_k_toNat] at helement

end Sys2Proof.Machine
end

section
/-! PROOFS. The probe: the stored positions in closed form, and what a successful ADD or TEST leaves of it (R443 to
R447). -/

namespace Sys2Proof.Machine

variable {s : State} {i : Instr} {a b m x : Int} {k n : Nat}

/-! ## The probe sequence -/

theorem probePositions_getElem? (hm : 0 < m) (hn : n < k) :
    (probePositions a b m k)[n]? = some (emod (a + (n : Int) * b) m) :=
  List.getElem?_eq_some_iff.2 ⟨by simpa using hn, probePositions_getElem hm hn⟩

theorem emod_range (hm : 0 < m) : 0 ≤ emod x m ∧ emod x m < m :=
  ⟨Int.emod_nonneg x hm.ne', Int.emod_lt_of_pos x hm⟩

/-- Correcting the running value too stores the same positions: the two running values stay congruent modulo `m`. -/
theorem positionsFrom_eq_correctedFrom (hm : 0 < m) (hx : -m < x ∧ x < m) :
    positionsFrom b m n x = correctedFrom b m n (emod x m) := by
  induction n generalizing x with
  | zero => rfl
  | succ n ih =>
    have hrunning : emod (trem (x + b) m) m = emod (emod x m + b) m :=
      trem_emod.trans (Int.emod_add_emod x m b).symm
    rw [positionsFrom, correctedFrom, storedPosition_eq hx, ih (trem_range hm), hrunning]
    rfl

theorem probePositions_eq_correctedFrom (hm : 0 < m) : probePositions a b m k = correctedFrom b m k (emod a m) := by
  have hstart : emod (trem a m) m = emod a m := trem_emod
  rw [probePositions, positionsFrom_eq_correctedFrom hm (trem_range hm), hstart]

/-- Settles O31: each stored position is the remainder of its term, and the corrected sequence agrees with the loop. -/
theorem positionsHaveTheClosedForm : Obligations.PositionsHaveTheClosedForm :=
  fun _ _ _ _ hm =>
    ⟨probePositions_length, fun _ hi => ⟨probePositions_getElem? hm hi, emod_range hm⟩,
      probePositions_eq_correctedFrom hm⟩

/-! ## What ADD and TEST leave of it -/

/-- A probed element holds the key's position, in the words of R446. -/
theorem State.probe_locWord_keyPosition (hm : 0 < s.m.toNat) (hn : n < s.k.toNat) :
    (s.probe.locWord n).toNat = keyPosition s.par s.m s.acc n := by
  rw [keyPosition, emod, ← State.probe_locWord_toNat hm hn, Int.toNat_natCast]

/-- ADD and TEST of a filter leave what `probe` leaves, but for the bits, RESULT, ERR and the response. -/
theorem exec_leaves_probe (hi : i = .add ∨ i = .test) (hc : s.configured = true) :
    ∃ bkt result, exec i s =
      .next { s.probe with bkt := bkt, result := result, err := .ok, resp := some .ok } := by
  obtain rfl | rfl := hi
  · rw [execAdd_configured hc, State.setBits_eq]
    exact ⟨_, _, rfl⟩
  · exact ⟨_, _, execTest_configured hc⟩

/-- Settles O32: ADD and TEST differ from `probe` in no field that the statement names, and `probe` keeps the
invariant, which bounds its positions. -/
theorem addAndTestLeaveTheProbe : Obligations.AddAndTestLeaveTheProbe := by
  intro s hs hc i hi
  obtain ⟨bkt, result, hexec⟩ := exec_leaves_probe hi hc
  exact ⟨_, hexec, rfl, rfl, rfl, rfl,
    fun n hn => ⟨State.probe_locWord_keyPosition (hs.m_pos hc) hn, (hs.probe hc).positions_lt hc n hn⟩,
    fun _ hn => State.probe_locWord_above hn⟩

end Sys2Proof.Machine
end

section
/-! PROOFS. ADD: the state a successful ADD leaves, the bits it sets, and that no other operation sets one (R460 to
R462). -/

namespace Sys2Proof.Machine

variable {s t : State} {l j n : Nat}

/-! ## The bucket array by its bits -/

/-- A bucket word is known from its 32 bits of the filter. -/
theorem bktWord_eq_of_filterBit_eq_in_word (h : ∀ l, l / 32 = j → s.filterBit l = t.filterBit l) :
    s.bktWord j = t.bktWord j := by
  apply BitVec.eq_of_getLsbD_eq
  intro n hn
  have hdiv : (32 * j + n) / 32 = j := by omega
  have hmod : (32 * j + n) % 32 = n := by omega
  simpa only [State.filterBit, hdiv, hmod] using h (32 * j + n) hdiv

/-- The unspecified bucket words are numbered by the resets (log entry 6). -/
theorem State.freeBkt_congr (h : s.epoch = t.epoch) : s.freeBkt = t.freeBkt :=
  funext fun j => congrArg (Config.freeBucket · j) h

/-- Equal bucket arrays of one reset have the same bits. -/
theorem State.filterBit_congr (hbkt : s.bkt = t.bkt) (hepoch : s.epoch = t.epoch) (l : Nat) :
    s.filterBit l = t.filterBit l := by
  simp only [State.filterBit, State.bktWord, hbkt, State.freeBkt_congr hepoch]

/-- Canonical bucket arrays of one reset, with as many words zeroed and with the same bits, are equal data. -/
theorem bkt_eq_of_filterBit_eq (hs : s.bkt.wf s.freeBkt) (ht : t.bkt.wf t.freeBkt) (hepoch : s.epoch = t.epoch)
    (hzeroed : s.bkt.zeroed = t.bkt.zeroed) (h : ∀ l, s.filterBit l = t.filterBit l) : s.bkt = t.bkt := by
  have hfree := State.freeBkt_congr hepoch
  refine Memory.ext_of_read hs (hfree ▸ ht) hzeroed fun j => ?_
  have hword : s.bktWord j = t.bktWord j := bktWord_eq_of_filterBit_eq h j
  rwa [State.bktWord, State.bktWord, ← hfree] at hword

/-! ## The state after a successful ADD -/

/-- The state a successful ADD leaves. -/
def State.added (s : State) : State := { s.probe.setBits s.probe.locations with err := .ok }.respond .ok

theorem exec_add (hc : s.configured = true) : exec .add s = .next s.added := execAdd_configured hc

@[simp] theorem State.added_configured : s.added.configured = s.configured := by simp [State.added]
@[simp] theorem State.added_m : s.added.m = s.m := by simp [State.added]
@[simp] theorem State.added_k : s.added.k = s.k := by simp [State.added]
@[simp] theorem State.added_acc : s.added.acc = s.par.hashInit := by simp [State.added]
@[simp] theorem State.added_hashA : s.added.hashA = s.acc := by simp [State.added]
@[simp] theorem State.added_hashB : s.added.hashB = rehash s.par s.acc := by simp [State.added]
@[simp] theorem State.added_par : s.added.par = s.par := by simp [State.added]
@[simp] theorem State.added_epoch : s.added.epoch = s.epoch := by simp [State.added]
@[simp] theorem State.added_zeroed : s.added.bkt.zeroed = s.bkt.zeroed := State.setBits_zeroed _

/-- ADD changes the bits, what the probe leaves, STATUS.ERR and the response, and nothing else (R460). -/
theorem State.added_eq : s.added = { s with
    bkt := s.added.bkt, loc := s.added.loc, hashA := s.acc, hashB := rehash s.par s.acc, locValid := true,
    acc := s.par.hashInit, err := .ok, resp := some .ok } := by
  unfold State.added
  rw [State.setBits_eq]
  rfl

theorem State.Inv.added (hs : s.Inv) (hc : s.configured = true) : s.added.Inv := exec_inv hs (exec_add hc)

/-- LOC holds the key's positions after ADD. -/
theorem State.added_locWord (hm : 0 < s.m.toNat) (hn : n < s.k.toNat) :
    (s.added.locWord n).toNat = keyPosition s.par s.m s.acc n := by
  have hloc : s.added.locWord n = s.probe.locWord n := State.setBits_locWord _ _ n
  rw [hloc, State.probe_locWord_keyPosition hm hn]

/-- The positions ADD takes from LOC are those of the key's bits. -/
theorem State.mem_probe_locations (hm : 0 < s.m.toNat) : l ∈ s.probe.locations ↔ s.keyBit s.acc l := by
  simp only [State.locations, List.mem_map, List.mem_range, State.probe_k, State.keyBit]
  refine exists_congr fun n => and_congr_right fun hn => ?_
  rw [State.probe_locWord_keyPosition hm hn, eq_comm]

/-- A bit is 1 after ADD when it was, or when it is one of the key's (R460). -/
theorem State.added_filterBit (hm : 0 < s.m.toNat) :
    s.added.filterBit l = true ↔ s.filterBit l = true ∨ s.keyBit s.acc l := by
  have hloop : s.added.filterBit l = (s.filterBit l || decide (l ∈ s.probe.locations)) := State.setBits_filterBit _ l
  rw [hloop, Bool.or_eq_true, decide_eq_true_iff, State.mem_probe_locations hm]

/-- ADD leaves a word that holds none of the key's bits. -/
theorem State.added_bktWord_of_no_keyBit (hm : 0 < s.m.toNat) (hj : ∀ l, l / 32 = j → ¬ s.keyBit s.acc l) :
    s.added.bktWord j = s.bktWord j :=
  bktWord_eq_of_filterBit_eq_in_word fun l hl =>
    Bool.eq_iff_iff.2 ((State.added_filterBit hm).trans (or_iff_left (hj l hl)))

/-- ADD of a key whose bits are all 1 leaves the bucket array as it was, as equal data. -/
theorem State.Inv.added_bkt_of_keyBits_set (hs : s.Inv) (hc : s.configured = true)
    (hset : ∀ l, s.keyBit s.acc l → s.filterBit l = true) : s.added.bkt = s.bkt :=
  bkt_eq_of_filterBit_eq (hs.added hc).bkt_wf hs.bkt_wf State.added_epoch State.added_zeroed fun l =>
    Bool.eq_iff_iff.2 ((State.added_filterBit (hs.m_pos hc)).trans (or_iff_left_of_imp (hset l)))

/-- Settles O33, from the bits, the words and the other fields of the state a successful ADD leaves. -/
theorem addSetsExactlyTheKeysBits : Obligations.AddSetsExactlyTheKeysBits := by
  intro s hs
  refine ⟨fun hc => ?_, execAdd_unconfigured⟩
  have hm := hs.m_pos hc
  refine ⟨s.added, exec_add hc, fun l => State.added_filterBit hm, fun j hj => ?_, State.added_eq⟩
  refine State.added_bktWord_of_no_keyBit hm ?_
  rintro l hl ⟨n, hn, rfl⟩
  exact hj n hn hl

/-! ## Who sets bits -/

/-- A new filter has no bit set. -/
theorem State.Inv.construct_filterBit (hs : s.Inv) (hv : ¬ s.configInvalid) (hl : l < s.construct.m.toNat) :
    s.construct.filterBit l = false := by
  have hword : l / 32 < roundUp32 s.nb / 32 :=
    State.construct_m_toNat hs.legal hv ▸ (hs.construct hv).word_lt hl
  rw [State.filterBit, State.construct_bktWord, if_pos hword]
  exact BitVec.getLsbD_zero

/-- What keeps the filter sets no bit of it. -/
theorem KeepsFilter.not_sets_bit (h : KeepsFilter s t) (hold : s.filterBit l = false) : t.filterBit l ≠ true := by
  obtain ⟨-, -, hbits⟩ := h.filter_eq
  simp [hbits, hold]

/-- An instruction after which a bit of the filter is newly 1 is a successful ADD. -/
theorem exec_sets_bit {i : Instr} (hs : s.Inv) (h : exec i s = .next t) (hl : l < t.m.toNat)
    (hold : s.filterBit l = false) (hnew : t.filterBit l = true) : i = .add ∧ s.configured = true := by
  obtain hk | ⟨-, hv, hk⟩ | ⟨hadd, hc, -⟩ | ⟨-, -, hk⟩ := exec_filter_cases h
  · exact absurd hnew (hk.not_sets_bit hold)
  · obtain ⟨⟨hm, -⟩, -⟩ := hk.filter_eq
    exact absurd hnew (hk.not_sets_bit (hs.construct_filterBit hv (hm ▸ hl)))
  · exact ⟨hadd, hc⟩
  · exact absurd hnew (hk.not_sets_bit hold)

/-- Settles O34: ADD keeps the set bits as every instruction within a filter's life does; a step that sets a bit is no
reset, which leaves no filter, and so performs an instruction, which must be ADD. -/
theorem addOnlySetsAndAloneSetsBits : Obligations.AddOnlySetsAndAloneSetsBits := by
  refine ⟨fun s t _ _ h l _ hset => ?_, fun s t hs h l hl hold hnew => ?_⟩
  · obtain ⟨-, -, hbits⟩ := exec_within_filter h (by simp)
    exact hbits l hset
  · obtain hk | ⟨a, rest, -, rfl⟩ | ⟨x, rest, i, hp, hd, hx⟩ := step_filter_cases h
    · exact absurd hnew (hk.not_sets_bit hold)
    · exact absurd hl (Nat.not_lt_zero l)
    · obtain ⟨rfl, hc⟩ := exec_sets_bit (hs.of_keepsFilter (keepsFilter_port s rest)) hx hl hold hnew
      exact ⟨x, rest, hp, hd, hc⟩

/-! ## Adding a key again -/

/-- The bits of a key depend on its hash, `M`, `K` and the parameters only (R448). -/
theorem State.keyBit_congr (hpar : s.par = t.par) (hm : s.m = t.m) (hk : s.k = t.k) (acc : Word) :
    s.keyBit acc l ↔ t.keyBit acc l := by
  unfold State.keyBit
  rw [hpar, hm, hk]

/-- Settles O35: the first ADD has set every bit that the second one sets, and both probe the same positions. -/
theorem addIsIdempotent : Obligations.AddIsIdempotent := by
  intro s t u v hs hu hc hacc hadd hbkt hepoch hpar hm hk hcu haccu
  obtain rfl : s.added = t := by simpa [exec_add hc] using hadd
  simp only [State.added_epoch, State.added_par, State.added_m, State.added_k] at hepoch hpar hm hk
  have hkey : u.acc = s.acc := by rw [haccu, hacc, hpar]
  have hset : ∀ l, u.keyBit u.acc l → u.filterBit l = true := by
    intro l hl
    rw [hkey, State.keyBit_congr hpar hm hk] at hl
    rw [State.filterBit_congr hbkt (hepoch.trans State.added_epoch.symm)]
    exact (State.added_filterBit (hs.m_pos hc)).2 (.inr hl)
  refine ⟨u.added, exec_add hcu, (hu.added_bkt_of_keyBits_set hcu hset).trans hbkt, ?_, ?_, fun n hn => ?_⟩
  · rw [State.added_hashA, State.added_hashA, hkey]
  · rw [State.added_hashB, State.added_hashB, hpar, hkey]
  · apply BitVec.eq_of_toNat_eq
    rw [State.added_locWord (hu.m_pos hcu) (hk ▸ hn), State.added_locWord (hs.m_pos hc) hn, hpar, hm, hkey]

end Sys2Proof.Machine
end

section
/-! PROOFS. The ADDs of a list of keys: what a host that sends them leaves, and that their order does not matter to the
bucket array (R463). -/

namespace Sys2Proof.Machine

variable {s t : State} {v : List Byte} {vs : List (List Byte)} {rest : List Event} {l m n : Nat}

/-! ## Adding keys one after another -/

/-- The state that the KB writes of `v` and an ADD leave. -/
def State.addKey (s : State) (v : List Byte) : State := { s with acc := hashOf s.par v }.added

/-- The state that the same leaves for each key of a list, in order. -/
def State.addKeys (s : State) (vs : List (List Byte)) : State := vs.foldl State.addKey s

@[simp] theorem State.addKey_configured : (s.addKey v).configured = s.configured := by simp [State.addKey]
@[simp] theorem State.addKey_m : (s.addKey v).m = s.m := by simp [State.addKey]
@[simp] theorem State.addKey_k : (s.addKey v).k = s.k := by simp [State.addKey]
@[simp] theorem State.addKey_par : (s.addKey v).par = s.par := by simp [State.addKey]
@[simp] theorem State.addKey_acc : (s.addKey v).acc = s.par.hashInit := by simp [State.addKey]
@[simp] theorem State.addKey_epoch : (s.addKey v).epoch = s.epoch := by simp [State.addKey]
@[simp] theorem State.addKey_zeroed : (s.addKey v).bkt.zeroed = s.bkt.zeroed := by simp [State.addKey]

theorem State.Inv.addKey (hs : s.Inv) (hc : s.configured = true) : (s.addKey v).Inv :=
  State.Inv.added (hs.of_keepsFilter rfl) hc

theorem State.addKey_filterBit (hm : 0 < s.m.toNat) :
    (s.addKey v).filterBit l = true ↔ s.filterBit l = true ∨ s.keyBit (hashOf s.par v) l :=
  State.added_filterBit (s := { s with acc := hashOf s.par v }) hm

@[simp] theorem State.addKeys_nil : s.addKeys [] = s := rfl
@[simp] theorem State.addKeys_cons : s.addKeys (v :: vs) = (s.addKey v).addKeys vs := rfl

theorem State.addKeys_concat : s.addKeys (vs ++ [v]) = (s.addKeys vs).addKey v := by simp [State.addKeys]

/-- Adding keys keeps the filter's registers, the parameters, and what has been zeroed. -/
theorem State.addKeys_frame : (s.addKeys vs).par = s.par ∧ (s.addKeys vs).m = s.m ∧ (s.addKeys vs).k = s.k ∧
    (s.addKeys vs).epoch = s.epoch ∧ (s.addKeys vs).bkt.zeroed = s.bkt.zeroed := by
  induction vs generalizing s with
  | nil => simp
  | cons v vs ih => simpa using ih (s := s.addKey v)

theorem State.Inv.addKeys (hs : s.Inv) (hc : s.configured = true) : (s.addKeys vs).Inv := by
  induction vs generalizing s with
  | nil => exact hs
  | cons v vs ih => exact ih (hs.addKey hc) (State.addKey_configured.trans hc)

/-- The bucket array afterwards is the OR of the old bits and of every key's bits (R463). -/
theorem State.addKeys_filterBit (hm : 0 < s.m.toNat) :
    (s.addKeys vs).filterBit l = true ↔ s.filterBit l = true ∨ ∃ v ∈ vs, s.keyBit (hashOf s.par v) l := by
  induction vs generalizing s with
  | nil => simp
  | cons v vs ih =>
    have hkeys : ∀ w, (s.addKey v).keyBit (hashOf (s.addKey v).par w) l ↔ s.keyBit (hashOf s.par w) l := fun w => by
      rw [State.addKey_par]
      exact State.keyBit_congr State.addKey_par State.addKey_m State.addKey_k _
    rw [State.addKeys_cons, ih (State.addKey_m (s := s) ▸ hm), State.addKey_filterBit hm]
    simp only [hkeys, List.exists_mem_cons_iff, or_assoc]

/-- Keys in another order leave the same bucket array, since it is known from its bits. -/
theorem State.Inv.addKeys_bkt_perm (hs : s.Inv) (hc : s.configured = true) {ws : List (List Byte)} (h : vs.Perm ws) :
    (s.addKeys vs).bkt = (s.addKeys ws).bkt := by
  obtain ⟨-, -, -, hepoch, hzeroed⟩ := State.addKeys_frame (s := s) (vs := vs)
  obtain ⟨-, -, -, hepoch', hzeroed'⟩ := State.addKeys_frame (s := s) (vs := ws)
  refine bkt_eq_of_filterBit_eq (hs.addKeys hc).bkt_wf (hs.addKeys hc).bkt_wf (hepoch.trans hepoch'.symm)
    (hzeroed.trans hzeroed'.symm) fun l => Bool.eq_iff_iff.2 ?_
  rw [State.addKeys_filterBit (hs.m_pos hc), State.addKeys_filterBit (hs.m_pos hc)]
  simp only [h.mem_iff]

/-- HASH_A, HASH_B and LOC afterwards are those of the last key (R463). -/
theorem State.addKeys_last (hm : 0 < s.m.toNat) (hlast : vs.getLast? = some v) :
    (s.addKeys vs).hashA = hashOf s.par v ∧ (s.addKeys vs).hashB = rehash s.par (hashOf s.par v) ∧
    ∀ n, n < s.k.toNat → ((s.addKeys vs).locWord n).toNat = keyPosition s.par s.m (hashOf s.par v) n := by
  obtain ⟨before, rfl⟩ := List.getLast?_eq_some_iff.1 hlast
  obtain ⟨hpar, hm', hk, -⟩ := State.addKeys_frame (s := s) (vs := before)
  rw [State.addKeys_concat, ← hpar, ← hm', ← hk]
  exact ⟨State.added_hashA, State.added_hashB, fun n hn => State.added_locWord (hm' ▸ hm) hn⟩

/-! ## What the host sends -/

/-- A run goes on from where its first part ended. -/
theorem run_trans {o : Host.Outcome State Fault Refusal} (h : Host.Core.run Sys2Proof.core n s = .next t)
    (h' : Host.Core.run Sys2Proof.core m t = o) : Host.Core.run Sys2Proof.core (n + m) s = o := by
  induction n generalizing s with
  | zero => cases h; rwa [Nat.zero_add]
  | succ n ih =>
    rw [Nat.succ_add]
    simp only [Host.Core.run] at h ⊢
    split at h
    · exact ih h
    · cases h
    · cases h

/-- ADD's loop does not look at the port or the response. -/
theorem State.setBits_with_port_resp (ls : List Nat) (p : List Event) (r : Option Response) :
    { s with port := p, resp := r }.setBits ls = { s.setBits ls with port := p, resp := r } := by
  induction ls generalizing s with
  | nil => rfl
  | cons l ls ih => exact ih (s := s.setBit l)

/-- Nor does ADD; it answers OK whatever the last response was. -/
theorem State.added_with_port_resp (p : List Event) (r : Option Response) :
    { s with port := p, resp := r }.added = { s.added with port := p } :=
  congrArg (fun u : State => { u with err := .ok }.respond .ok)
    (State.setBits_with_port_resp (s := s.probe) s.probe.locations p r)

/-- Performing one ADD. -/
theorem step_add (hc : s.configured = true) (r : Option Response) :
    step { s with port := .txn (encode .add) :: rest, resp := r } = .next { s.added with port := rest } :=
  calc step { s with port := .txn (encode .add) :: rest, resp := r }
    _ = exec .add { s with port := rest, resp := r } := step_instr rfl (decode_encode rfl)
    _ = .next (State.added { s with port := rest, resp := r }) := exec_add (s := { s with port := rest, resp := r }) hc
    _ = .next { s.added with port := rest } := congrArg _ (State.added_with_port_resp rest r)

/-- Performing the operations of one ADDKEY (R309). -/
theorem run_addKeyOps (hc : s.configured = true) (hacc : s.acc = s.par.hashInit) :
    Host.Core.run Sys2Proof.core (addKeyOps v).length { s with port := eventsOf (addKeyOps v) ++ rest } =
      .next { s.addKey v with port := rest } := by
  have hport : eventsOf (addKeyOps v) ++ rest = eventsOf (keyOps v) ++ .txn (encode .add) :: rest := by
    simp [eventsOf, addKeyOps]
  obtain ⟨r, hrun⟩ := keyBytesHashInWriteOrder v { s with port := eventsOf (addKeyOps v) ++ rest } _ hport
  have hhash : hashFrom s.par s.acc v = hashOf s.par v := congrArg (hashFrom s.par · v) hacc
  have hlen : (addKeyOps v).length = v.length + 1 := by simp [addKeyOps, keyOps]
  rw [hlen]
  refine run_trans hrun (run_succ_of_step ?_)
  simp only [hhash]
  exact step_add (s := { s with acc := hashOf s.par v }) hc r

/-- Performing the operations of the ADDKEYs of a list of keys. -/
theorem run_addKeysOps (hc : s.configured = true) (hacc : s.acc = s.par.hashInit) :
    Host.Core.run Sys2Proof.core (eventsOf (vs.flatMap addKeyOps)).length
      { s with port := eventsOf (vs.flatMap addKeyOps) } = .next { s.addKeys vs with port := [] } := by
  induction vs generalizing s with
  | nil => rfl
  | cons v vs ih =>
    have hsplit : eventsOf ((v :: vs).flatMap addKeyOps) =
        eventsOf (addKeyOps v) ++ eventsOf (vs.flatMap addKeyOps) := by simp [eventsOf]
    have hlen : (eventsOf ((v :: vs).flatMap addKeyOps)).length =
        (addKeyOps v).length + (eventsOf (vs.flatMap addKeyOps)).length := by simp [eventsOf]
    rw [hlen, hsplit]
    exact run_trans (run_addKeyOps hc hacc)
      (ih (State.addKey_configured.trans hc) (State.addKey_acc.trans (congrArg _ State.addKey_par.symm)))

/-- Settles O36: the host's run adds the keys one after another, which leaves the OR of their bits in any order. -/
theorem addsInAnyOrderLeaveTheSameBuckets : Obligations.AddsInAnyOrderLeaveTheSameBuckets := by
  intro s vs ws hs hc hacc hperm
  exact ⟨{ s.addKeys vs with port := [] }, { s.addKeys ws with port := [] },
    run_addKeysOps hc hacc, run_addKeysOps hc hacc, hs.addKeys_bkt_perm hc hperm,
    fun _ => State.addKeys_filterBit (hs.m_pos hc), fun _ hlast => State.addKeys_last (hs.m_pos hc) hlast⟩

end Sys2Proof.Machine
end

section
/-! PROOFS. TEST: the state a successful TEST leaves, its answer, and that within the life of a filter no key that was
added tests 0 (R470 to R474). -/

namespace Sys2Proof.Machine

variable {s t u : State}

/-! ## The state after a successful TEST -/

/-- The state a successful TEST leaves. -/
def State.tested (s : State) : State :=
  { s.probe with result := s.probe.allSet s.probe.locations, err := .ok }.respond .ok

theorem exec_test (hc : s.configured = true) : exec .test s = .next s.tested := execTest_configured hc

/-- TEST changes RESULT, what the probe leaves, STATUS.ERR and the response, and nothing else (R472). -/
theorem State.tested_eq : s.tested = { s with
    loc := s.tested.loc, hashA := s.acc, hashB := rehash s.par s.acc, locValid := true, acc := s.par.hashInit,
    result := s.tested.result, err := .ok, resp := some .ok } := rfl

/-- TEST answers 1 when every bit of the key is 1, and only then (R470). -/
theorem State.tested_result (hm : 0 < s.m.toNat) :
    s.tested.result = true ↔ ∀ l, s.keyBit s.acc l → s.filterBit l = true := by
  have hloop : s.tested.result = s.probe.allSet s.probe.locations := rfl
  rw [hloop, State.allSet_eq, decide_eq_true_iff]
  exact forall_congr' fun l => imp_congr_left (State.mem_probe_locations hm)

/-- Settles O37, from the answer and the other fields of the state a successful TEST leaves. -/
theorem testAnswersWhetherAllBitsAreSet : Obligations.TestAnswersWhetherAllBitsAreSet :=
  fun s hs => ⟨fun hc => ⟨s.tested, exec_test hc, State.tested_result (hs.m_pos hc), State.tested_eq⟩,
    execTest_unconfigured⟩

/-- Settles O38: a TEST that fails changes ERR only, and one that succeeds leaves `State.tested`. -/
theorem testChangesOnlyItsFields : Obligations.TestChangesOnlyItsFields := by
  intro s t h
  obtain hc | hc := Bool.eq_false_or_eq_true s.configured
  · rw [exec_test hc] at h
    cases h
    exact ⟨rfl, State.tested_eq⟩
  · rw [execTest_unconfigured hc] at h
    cases h
    exact ⟨rfl, rfl⟩

/-! ## The life of a filter -/

/-- `t` has the filter of `s`, with at least its bits: the same parameters, `M` and `K`, and each bit that is 1 in `s`
is 1 in `t`. -/
structure GrowsFilter (s t : State) : Prop where
  par_eq : t.par = s.par
  m_eq : t.m = s.m
  k_eq : t.k = s.k
  configured_eq : t.configured = s.configured
  bits : ∀ l, s.filterBit l = true → t.filterBit l = true

theorem GrowsFilter.trans (h : GrowsFilter s t) (h' : GrowsFilter t u) : GrowsFilter s u where
  par_eq := h'.par_eq.trans h.par_eq
  m_eq := h'.m_eq.trans h.m_eq
  k_eq := h'.k_eq.trans h.k_eq
  configured_eq := h'.configured_eq.trans h.configured_eq
  bits l hl := h'.bits l (h.bits l hl)

/-- The events that wait are no part of the filter. -/
theorem growsFilter_port (s : State) (p : List Event) : GrowsFilter s { s with port := p } :=
  ⟨rfl, rfl, rfl, rfl, fun _ hl => hl⟩

theorem growsFilter_of_step (hlife : ¬ s.endsFilter) (h : step s = .next t) : GrowsFilter s t := by
  obtain ⟨⟨hm, hk, -, hconf⟩, -, hbits⟩ := step_within_filter hlife h
  obtain ⟨-, hpar⟩ := step_port_par h
  exact ⟨hpar, hm, hk, hconf, hbits⟩

/-- The filter only grows within its life (R428), whatever the host sends. -/
theorem FilterRun.growsFilter (h : FilterRun s t) : GrowsFilter s t := by
  induction h with
  | refl s => exact growsFilter_port s s.port
  | perform hstep hlife _ ih => exact (growsFilter_of_step hlife hstep).trans ih
  | arrive es _ ih => exact (growsFilter_port _ _).trans ih

theorem State.growsFilter_added (hm : 0 < s.m.toNat) : GrowsFilter s s.added where
  par_eq := State.added_par
  m_eq := State.added_m
  k_eq := State.added_k
  configured_eq := State.added_configured
  bits _ hl := (State.added_filterBit hm).2 (.inl hl)

/-- Settles O39: ADD sets the key's bits, a run within the filter's life clears none of them and keeps all that the
positions depend on, and so TEST finds every bit of the key set. -/
theorem noFalseNegatives : Obligations.NoFalseNegatives := by
  intro s t u v hs hc hacc hadd hrun haccu
  obtain rfl : s.added = t := by simpa [exec_add hc] using hadd
  have hm := hs.m_pos hc
  have hlater : GrowsFilter s.added u := hrun.growsFilter
  have hsu : GrowsFilter s u := (State.growsFilter_added hm).trans hlater
  have hkey : u.acc = s.acc := by rw [haccu, hacc, hsu.par_eq]
  have hset : ∀ l, u.keyBit u.acc l → u.filterBit l = true := by
    intro l hl
    rw [hkey, State.keyBit_congr hsu.par_eq hsu.m_eq hsu.k_eq] at hl
    exact hlater.bits l ((State.added_filterBit hm).2 (.inr hl))
  exact ⟨u.tested, exec_test (hsu.configured_eq.trans hc), (State.tested_result (hsu.m_eq ▸ hm)).2 hset, rfl⟩

end Sys2Proof.Machine
end

section
/-! PROOFS. The register reads: what each returns, and the STATUS word as the sum of its fields (R117, R483, R484 and
R486 to R494). -/

namespace Sys2Proof.Machine

/-- Settles O43: each of the ten meanings is `readOk` of its register, by definition. -/
theorem registerReadsReturnTheRegister : Obligations.RegisterReadsReturnTheRegister :=
  fun _ => ⟨rfl, rfl, rfl, rfl, rfl, rfl, rfl, rfl, rfl, rfl⟩

/-! ## The STATUS word -/

theorem exec_rdStatus (s : State) : exec .rdStatus s = .next (s.respond (.okData s.statusWord)) := rfl

theorem bit_eq_ofNat (b : Bool) : bit b = BitVec.ofNat 32 b.toNat := by cases b <;> rfl

theorem LocWidth.bytes_le_four (w : LocWidth) : w.bytes ≤ 4 := by cases w <;> decide

theorem ErrCode.code_le_three (c : ErrCode) : c.code ≤ 3 := by cases c <;> decide

/-- Putting the field `f` at bit `n`, above all bits of `u`, adds `2^n * f`. -/
theorem toNat_or_field {u : Word} {a n f : Nat} (hu : u.toNat = a) (ha : a < 2 ^ n) (hf : 2 ^ n * f < 2 ^ 32) :
    (u ||| BitVec.ofNat 32 f <<< n).toNat = a + 2 ^ n * f := by
  have hfield : (BitVec.ofNat 32 f <<< n).toNat = 2 ^ n * f := by
    rw [BitVec.toNat_shiftLeft, BitVec.toNat_ofNat, Nat.shiftLeft_eq, Nat.mod_mul_mod, Nat.mul_comm,
      Nat.mod_eq_of_lt hf]
  rw [BitVec.toNat_or, hu, hfield, Nat.or_comm, ← Nat.two_pow_add_eq_or_of_lt ha, Nat.add_comm]

/-- The five fields do not overlap (R117), so the word is their sum, each at its place. -/
theorem State.statusWord_toNat (s : State) :
    s.statusWord.toNat = s.configured.toNat + 2 ^ 1 * s.result.toNat + 2 ^ 2 * s.locValid.toNat
      + 2 ^ 4 * s.w.bytes + 2 ^ 8 * s.err.code := by
  have hc := s.configured.toNat_le
  have hr := s.result.toNat_le
  have hv := s.locValid.toNat_le
  have hw := s.w.bytes_le_four
  have he := s.err.code_le_three
  have hflag : (BitVec.ofNat 32 s.configured.toNat).toNat = s.configured.toNat := Nat.mod_eq_of_lt (by omega)
  have hresult := toNat_or_field (n := 1) (f := s.result.toNat) hflag (by omega) (by omega)
  have hlocValid := toNat_or_field (n := 2) (f := s.locValid.toNat) hresult (by omega) (by omega)
  have hwidth := toNat_or_field (n := 4) (f := s.w.bytes) hlocValid (by omega) (by omega)
  simp only [State.statusWord, bit_eq_ofNat]
  exact toNat_or_field hwidth (by omega) (by omega)

/-- A word has bit `n` when that binary digit of its value is 1. -/
theorem getLsbD_eq_of_toNat_div_mod {v : Word} {n : Nat} {b : Bool} (h : v.toNat / 2 ^ n % 2 = b.toNat) :
    v.getLsbD n = b := by
  rw [BitVec.getLsbD, Nat.testBit_eq_decide_div_mod_eq, h]
  cases b <;> rfl

/-- Settles O44: each field is read off the sum as a digit, as no field reaches the next one's place. -/
theorem statusReadShowsTheFields : Obligations.StatusReadShowsTheFields := by
  intro s
  have hsum := s.statusWord_toNat
  have hc := s.configured.toNat_le
  have hr := s.result.toNat_le
  have hv := s.locValid.toNat_le
  have hw := s.w.bytes_le_four
  refine ⟨s.statusWord, exec_rdStatus s, ?configured, ?result, ?locValid, ?reserved, ?width, ?err⟩
  case configured | result | locValid => exact getLsbD_eq_of_toNat_div_mod (by omega)
  case reserved => exact getLsbD_eq_of_toNat_div_mod (by rw [Bool.toNat_false]; omega)
  case width =>
    have hdigit : s.statusWord.toNat / 16 % 16 = s.w.bytes := by omega
    exact hdigit
  case err =>
    have hdigit : s.statusWord.toNat / 256 = s.err.code := by omega
    exact hdigit

end Sys2Proof.Machine
end

section
/-! PROOFS. The export image as a consumer reads it: it holds the bits of the filter, so that testing a key's positions
in it is TEST (R485). -/

namespace Sys2Proof.Machine

variable {s : State}

/-- A position lies below `M`, whatever the hashes (R446). -/
theorem keyPosition_lt {m : Word} (hm : 0 < m.toNat) (p : Params) (acc : Word) (i : Nat) :
    keyPosition p m acc i < m.toNat := by
  obtain ⟨hnonneg, hlt⟩ := emod_range (x := sint32 acc + i * sint32 (rehash p acc)) (Int.natCast_pos.2 hm)
  rw [keyPosition]
  omega

/-- The bits of a key, by the number of the probe. -/
theorem State.forall_keyBit {acc : Word} {P : Nat → Prop} :
    (∀ l, s.keyBit acc l → P l) ↔ ∀ i < s.k.toNat, P (keyPosition s.par s.m acc i) := by
  constructor
  · exact fun h i hi => h _ ⟨i, hi, rfl⟩
  · rintro h l ⟨i, hi, rfl⟩
    exact h i hi

/-- A consumer finds each bit of the filter in the image. -/
theorem State.Inv.imageBit_exportImage (hs : s.Inv) {l : Nat} (hl : l < s.m.toNat) :
    imageBit s.exportImage l = s.filterBit l := by
  have hword := hs.word_lt hl
  have hbyte : l / 8 < 4 * (s.m.toNat / 32) := by omega
  rw [imageBit, List.getD_eq_getElem?_getD, State.exportImage_getElem? hbyte, Option.getD_some,
    State.exportByte_getLsbD (Nat.mod_lt l (by decide)), Nat.div_add_mod]

/-- Settles O49: TEST looks at the key's bits of the filter, and the image holds the same bits at the key's positions. -/
theorem consumerOfTheImageAgreesWithTest : Obligations.ConsumerOfTheImageAgreesWithTest := by
  intro s t hs hc h
  have hm := hs.m_pos hc
  obtain rfl : s.tested = t := by simpa [exec_test hc] using h
  calc s.tested.result = true
    _ ↔ ∀ l, s.keyBit s.acc l → s.filterBit l = true := State.tested_result hm
    _ ↔ ∀ i < s.k.toNat, s.filterBit (keyPosition s.par s.m s.acc i) = true := State.forall_keyBit
    _ ↔ ∀ i < s.k.toNat, imageBit s.exportImage (keyPosition s.par s.m s.acc i) = true := by
      simp only [hs.imageBit_exportImage (keyPosition_lt hm _ _ _)]

end Sys2Proof.Machine
end

section
/-! PROOFS. Command errors: a command ends in success or in an error that sets STATUS.ERR and nothing else, and nothing
but commands and reset writes STATUS.ERR (R600 to R604). -/

namespace Sys2Proof.Machine

variable {s t : State} {i : Instr} {x : Txn} {r : Reg} {dir : Dir} {c : IllegalCause} {cw : Word} {rest : List Event}

/-! ## How a command ends -/

/-- The code with which the command `i` ends (R601, R604). -/
def State.commandCode (s : State) : Instr → ErrCode
  | .config => if s.configInvalid then .invalidConfig else .ok
  | .add | .test => if s.configured = true then .ok else .notConfigured
  | _ => .ok

/-- A command that began in `s` ends in `t` with `code`: its write returns OK, and unless it succeeds nothing else
changes (R600, R602). -/
structure CommandEnds (s : State) (code : ErrCode) (t : State) : Prop where
  err_eq : t.err = code
  resp_eq : t.resp = some .ok
  unchanged : code ≠ .ok → t = (s.fail code).respond .ok

theorem commandEnds_ok (herr : t.err = .ok) (hresp : t.resp = some .ok) : CommandEnds s .ok t :=
  ⟨herr, hresp, fun h => absurd rfl h⟩

theorem commandEnds_fail (s : State) (code : ErrCode) : CommandEnds s code ((s.fail code).respond .ok) :=
  ⟨rfl, rfl, fun _ => rfl⟩

/-- A command whose condition holds succeeds, and one whose condition does not hold fails with its code. -/
theorem exec_command (hi : encode i = .cmd cw) (s : State) :
    ∃ t, exec i s = .next t ∧ CommandEnds s (s.commandCode i) t := by
  cases i with
  | config =>
    by_cases hv : s.configInvalid
    · exact ⟨_, execConfig_invalid hv, by simpa only [State.commandCode, if_pos hv] using commandEnds_fail s _⟩
    · exact ⟨_, execConfig_valid hv, by simpa only [State.commandCode, if_neg hv] using commandEnds_ok rfl rfl⟩
  | add =>
    cases hc : s.configured with
    | true => exact ⟨_, execAdd_configured hc, by simpa [State.commandCode, hc] using commandEnds_ok rfl rfl⟩
    | false => exact ⟨_, execAdd_unconfigured hc, by simpa [State.commandCode, hc] using commandEnds_fail s _⟩
  | test =>
    cases hc : s.configured with
    | true => exact ⟨_, execTest_configured hc, by simpa [State.commandCode, hc] using commandEnds_ok rfl rfl⟩
    | false => exact ⟨_, execTest_unconfigured hc, by simpa [State.commandCode, hc] using commandEnds_fail s _⟩
  | keyreset => exact ⟨_, exec_keyreset, commandEnds_ok rfl rfl⟩
  | _ => cases hi

theorem exec_command_resp (hi : encode i = .cmd cw) : ∃ t, exec i s = .next t ∧ t.resp ≠ some .error := by
  obtain ⟨t, ht, hends⟩ := exec_command hi s
  exact ⟨t, ht, by simp [hends.resp_eq]⟩

/-- A write to CMD carries a command or an illegal word (R301, R304). -/
theorem decode_command (hx : IsCommand x cw) :
    (∃ i, decode x = .instr i ∧ encode i = .cmd cw) ∨ ∃ c, decode x = .illegalCommand c := by
  rw [decode_of_isCommand hx]
  obtain ⟨rfl, hd⟩ | ⟨rfl, hd⟩ | ⟨rfl, hd⟩ | ⟨rfl, hd⟩ | ⟨-, hc⟩ := decodeCommand_cases cw
  case inr.inr.inr.inr => exact .inr hc
  all_goals exact .inl ⟨_, hd, rfl⟩

/-- The code with which a command ends does not depend on the code before (R603). -/
theorem step_command (hport : s.port = .txn x :: rest) (hx : IsCommand x cw) :
    ∃ code, ∀ old, ∃ t, step { s with err := old } = .next t ∧
      CommandEnds { s with port := rest, err := old } code t := by
  obtain ⟨i, hd, hi⟩ | ⟨c, hd⟩ := decode_command hx
  · refine ⟨s.commandCode i, fun old => ?_⟩
    rw [step_instr (s := { s with err := old }) hport hd]
    obtain ⟨t, ht, hends⟩ := exec_command hi { s with port := rest, err := old }
    exact ⟨t, ht, hends⟩
  · exact ⟨.illegalCmd, fun old => ⟨_, step_illegal (s := { s with err := old }) hport hd, commandEnds_fail _ _⟩⟩

/-- Settles O12: a command that does not end with ERR = 0 leaves what a failing command leaves. -/
theorem commandsSucceedOrOnlySetErr : Obligations.CommandsSucceedOrOnlySetErr := by
  intro s x rest cw hport hx
  obtain ⟨code, hcode⟩ := step_command hport hx
  obtain ⟨t, ht, rfl, hresp, hunchanged⟩ := hcode s.err
  refine ⟨t, ht, hresp, ?_⟩
  by_cases hok : t.err = .ok
  · exact .inl hok
  · exact .inr (hunchanged hok)

/-! ## Which transactions are commands -/

/-- CMD is the only register at which a word can be an illegal command. -/
theorem decodeReg_illegal (h : decodeReg r dir = .illegalCommand c) : r = .cmd ∧ ∃ d, dir = .write d := by
  cases dir with
  | read => cases r <;> cases h
  | write d =>
    cases r with
    | cmd => exact ⟨rfl, d, rfl⟩
    | _ => cases h

/-- No access to a window or a reserved offset is a command. -/
theorem decodeWindow_ne_illegalCommand (a : Nat) (dir : Dir) (c : IllegalCause) :
    decodeWindow a dir ≠ .illegalCommand c := by
  rw [decodeWindow_eq]
  cases dir <;> split_ifs <;> simp

/-- What decodes to an illegal command is a write to CMD. -/
theorem isCommand_of_decode_illegal (h : decode x = .illegalCommand c) : ∃ cw, IsCommand x cw := by
  by_cases hword : x.size = 4 ∧ x.byteEnables = 0b1111#4 ∧ x.addr.toNat % 4 = 0
  · obtain ⟨hsize, hmask, halign⟩ := hword
    obtain ⟨r, hr⟩ | hwin := reg_or_window halign
    · rw [decode_reg hsize hmask hr] at h
      obtain ⟨rfl, d, hdir⟩ := decodeReg_illegal h
      exact ⟨d, hdir, BitVec.eq_of_toNat_eq hr, hsize, hmask⟩
    · rw [decode_window hsize hmask halign hwin] at h
      exact absurd h (decodeWindow_ne_illegalCommand _ _ _)
  · obtain ⟨c', hc'⟩ := decode_not_word (x := x) (by tauto)
    cases hc'.symm.trans h

/-- What decodes to an instruction of CMD is a write to CMD. -/
theorem isCommand_of_decode_cmd (h : decode x = .instr i) (hi : encode i = .cmd cw) : IsCommand x cw := by
  obtain ⟨hsize, hmask, -⟩ := word_of_decode_instr h
  obtain ⟨-, he | ⟨b, d, rfl, -, -⟩⟩ := carriesInstr_of_decode h
  · have hcmd : { x with attrs := 0 } = Txn.cmd cw := he.trans hi
    have hdir := congrArg Txn.dir hcmd
    have haddr := congrArg Txn.addr hcmd
    exact ⟨hdir, haddr, hsize, hmask⟩
  · cases hi

/-! ## Who writes STATUS.ERR -/

/-- A read only gives a response (R209). -/
theorem exec_read_keeps_err (h : exec i s = .next t) (hdir : (encode i).dir = .read) : t.err = s.err := by
  obtain ⟨r, hr⟩ := exec_read hdir s
  cases (hr s.port s.resp).symm.trans h
  rfl

/-- An instruction that is no command keeps ERR: the other writes and the reads do not touch STATUS (R402, R420, R421,
R209). -/
theorem exec_keeps_err (hi : ∀ cw, encode i ≠ .cmd cw) (h : exec i s = .next t) : t.err = s.err := by
  cases i with
  | config | add | test | keyreset => exact absurd rfl (hi _)
  | kb | wrNumbits | wrNumhashes => cases h; rfl
  | _ => exact exec_read_keeps_err h rfl

theorem step_keeps_err (hport : s.port = .txn x :: rest) (hx : ∀ cw, ¬ IsCommand x cw) (h : step s = .next t) :
    t.err = s.err := by
  cases hd : decode x with
  | instr i =>
    rw [step_instr hport hd] at h
    have hi : ∀ cw, encode i ≠ .cmd cw := fun cw he => hx cw (isCommand_of_decode_cmd hd he)
    exact exec_keeps_err (s := { s with port := rest }) hi h
  | busError c =>
    rw [step_busError hport hd] at h
    cases h
    rfl
  | illegalCommand c =>
    obtain ⟨cw, hcw⟩ := isCommand_of_decode_illegal hd
    exact absurd hcw (hx cw)

/-- Settles O13: a command's code does not depend on the code before, what is no command keeps it, and reset clears
it. -/
theorem errIsOverwrittenByCommandsOnly : Obligations.ErrIsOverwrittenByCommandsOnly := by
  refine ⟨fun s x rest cw new hport hx => ?command, fun s t x rest => step_keeps_err, fun s a rest hport => ?reset⟩
  case command =>
    obtain ⟨code, hcode⟩ := step_command hport hx
    obtain ⟨t, ht, hends⟩ := hcode s.err
    obtain ⟨u, hu, hends'⟩ := hcode new
    exact ⟨t, u, ht, hu, hends'.err_eq.trans hends.err_eq.symm⟩
  case reset => exact ⟨_, step_reset hport, rfl⟩

end Sys2Proof.Machine
end

section
/-! PROOFS. Bus errors: which transactions are answered with ERROR, in the words of the decoder and in those of R610, and
that every step answers a next state (R206 to R208, R610 to R613). -/

namespace Sys2Proof.Machine

variable {s : State} {i : Instr} {x : Txn} {r : Reg} {rest : List Event}

/-! ## Instructions that are answered with ERROR -/

/-- The instruction reads a window element that is not mapped (R204, R205). -/
def State.Unmapped (s : State) : Instr → Prop
  | .rdLoc n => s.configured = false ∨ s.k.toNat ≤ n
  | .rdBkt j => s.configured = false ∨ s.m.toNat / 32 ≤ j
  | _ => False

theorem exec_unmapped (h : s.Unmapped i) : exec i s = .next (s.respond .error) := by
  cases i with
  | rdLoc n => exact (locReadIsMappedBelowK n s).right h
  | rdBkt j => exact (bktReadIsMappedBelowM j s).right h
  | _ => cases h

/-- Every other instruction ends, and with another response: a command and a write return OK, a read its word. -/
theorem exec_mapped (h : ¬ s.Unmapped i) : ∃ t, exec i s = .next t ∧ t.resp ≠ some .error := by
  cases i with
  | config | add | test | keyreset => exact exec_command_resp rfl
  | rdLoc n => exact ⟨_, exec_rdLoc_mapped (by simpa [State.Unmapped] using h), by simp⟩
  | rdBkt j => exact ⟨_, exec_rdBkt_mapped (by simpa [State.Unmapped] using h), by simp⟩
  | _ => exact ⟨_, rfl, by simp⟩

theorem exec_answers (i : Instr) (s : State) : ∃ t, exec i s = .next t := by
  by_cases h : s.Unmapped i
  · exact ⟨_, exec_unmapped h⟩
  · obtain ⟨t, ht, -⟩ := exec_mapped h
    exact ⟨t, ht⟩

/-- Settles O9: a step idles, resets, answers an error, or performs an instruction, which has a next state. -/
theorem everyStepAnswersANextState : Obligations.EveryStepAnswersANextState := by
  refine ⟨exec_answers, fun s => ?_⟩
  rcases hport : s.port with _ | ⟨x | a, rest⟩
  · exact ⟨_, step_idle hport⟩
  · cases hd : decode x with
    | instr i => rw [step_instr hport hd]; exact exec_answers i _
    | busError c => exact ⟨_, step_busError hport hd⟩
    | illegalCommand c => exact ⟨_, step_illegal hport hd⟩
  · exact ⟨_, step_reset hport⟩

/-! ## Transactions that are answered with ERROR -/

/-- What the transaction asks for is answered with ERROR: the decoder rejects it, or it reads an element that is not
mapped. -/
def State.Rejects (s : State) : Decoded → Prop
  | .instr i => s.Unmapped i
  | .busError _ => True
  | .illegalCommand _ => False

theorem step_rejected (hport : s.port = .txn x :: rest) (h : s.Rejects (decode x)) :
    step s = .next { s with port := rest, resp := some .error } := by
  cases hd : decode x with
  | instr i =>
    rw [hd] at h
    exact (step_instr hport hd).trans (exec_unmapped (s := { s with port := rest }) h)
  | busError c => exact step_busError hport hd
  | illegalCommand c => rw [hd] at h; cases h

theorem step_accepted (hport : s.port = .txn x :: rest) (h : ¬ s.Rejects (decode x)) :
    ∃ t, step s = .next t ∧ t.resp ≠ some .error := by
  cases hd : decode x with
  | instr i =>
    rw [hd] at h
    rw [step_instr hport hd]
    exact exec_mapped (s := { s with port := rest }) h
  | busError c => rw [hd] at h; exact absurd trivial h
  | illegalCommand c => exact ⟨_, step_illegal hport hd, by simp⟩

/-! ## The cases of R610 -/

/-- No command word is a bus error (R304, R601). -/
theorem not_rejects_decodeCommand (cw : Word) : ¬ s.Rejects (decodeCommand cw) := by
  obtain ⟨-, hd⟩ | ⟨-, hd⟩ | ⟨-, hd⟩ | ⟨-, hd⟩ | ⟨-, c, hd⟩ := decodeCommand_cases cw
  all_goals rw [hd]; exact id

/-- Case (b) at a register. -/
theorem rejects_decodeReg_write (d : Word) : s.Rejects (decodeReg r (.write d)) ↔ r.offset ∈ readOnlyOffsets := by
  cases r with
  | cmd => exact iff_of_false (not_rejects_decodeCommand d) (by decide)
  | numbits | numhashes | keybyte => exact iff_of_false id (by decide)
  | _ => exact iff_of_true trivial (by decide)

/-- Case (c). -/
theorem rejects_decodeReg_read : s.Rejects (decodeReg r .read) ↔ r.offset = 0x020 ∨ r.offset = 0x024 := by
  cases r with
  | cmd | keybyte => exact iff_of_true trivial (by decide)
  | _ => exact iff_of_false id (by decide)

theorem reg_offset_le (r : Reg) : r.offset ≤ 0x030 := by cases r <;> decide

section WholeWord

variable (hsize : x.size = 4) (hmask : x.byteEnables = 0b1111#4) (halign : x.addr.toNat % 4 = 0)
include hsize hmask halign

/-- The cases of R610 that are left for an aligned whole-word read. -/
theorem busErrorCase_read (hdir : x.dir = .read) :
    BusErrorCase s x ↔ (x.addr.toNat = 0x020 ∨ x.addr.toNat = 0x024)
      ∨ ((0x034 ≤ x.addr.toNat ∧ x.addr.toNat ≤ 0xFFF) ∨ (0x2000 ≤ x.addr.toNat ∧ x.addr.toNat ≤ 0x0FFFFFFF)
        ∨ 0x20000000 ≤ x.addr.toNat)
      ∨ (0x1000 ≤ x.addr.toNat ∧ x.addr.toNat ≤ 0x1FFF ∧ s.Unmapped (.rdLoc ((x.addr.toNat - 0x1000) / 4)))
      ∨ (0x10000000 ≤ x.addr.toNat ∧ x.addr.toNat ≤ 0x1FFFFFFF
        ∧ s.Unmapped (.rdBkt ((x.addr.toNat - 0x10000000) / 4))) := by
  have hwrite : ¬ Txn.isWrite x := by simp [Txn.isWrite, hdir]
  simp [BusErrorCase, State.Unmapped, hsize, hmask, halign, hdir, hwrite]

/-- The cases of R610 that are left for an aligned whole-word write. -/
theorem busErrorCase_write {d : Word} (hdir : x.dir = .write d) :
    BusErrorCase s x ↔ (x.addr.toNat ∈ readOnlyOffsets ∨ (0x1000 ≤ x.addr.toNat ∧ x.addr.toNat ≤ 0x1FFF)
        ∨ (0x10000000 ≤ x.addr.toNat ∧ x.addr.toNat ≤ 0x1FFFFFFF))
      ∨ ((0x034 ≤ x.addr.toNat ∧ x.addr.toNat ≤ 0xFFF) ∨ (0x2000 ≤ x.addr.toNat ∧ x.addr.toNat ≤ 0x0FFFFFFF)
        ∨ 0x20000000 ≤ x.addr.toNat) := by
  have hwrite : Txn.isWrite x := ⟨d, hdir⟩
  simp [BusErrorCase, hsize, hmask, halign, hdir, hwrite]

/-- At a register only the cases (b) and (c) are left. -/
theorem busErrorCase_reg (hr : x.addr.toNat = r.offset) : BusErrorCase s x ↔ s.Rejects (decodeReg r x.dir) := by
  have hle := reg_offset_le r
  cases hdir : x.dir with
  | read =>
    rw [rejects_decodeReg_read, busErrorCase_read hsize hmask halign hdir, hr, or_iff_left (by omega)]
  | write d =>
    rw [rejects_decodeReg_write, busErrorCase_write hsize hmask halign hdir, hr, or_iff_left (by omega),
      or_iff_left (by omega)]

/-- Above the registers the cases (b) and (d) to (f) are left: the elements of the windows, and what is reserved. -/
theorem busErrorCase_window (hwin : 0x034 ≤ x.addr.toNat) :
    BusErrorCase s x ↔ s.Rejects (decodeWindow x.addr.toNat x.dir) := by
  rw [decodeWindow_eq]
  cases hdir : x.dir with
  | read =>
    rw [busErrorCase_read hsize hmask halign hdir]
    split_ifs with hloc hbkt
    · rw [or_iff_right (by omega), or_iff_right (by omega), or_iff_left (by omega), and_iff_right (by omega),
        and_iff_right (by omega)]
      rfl
    · rw [or_iff_right (by omega), or_iff_right (by omega), or_iff_right (by omega), and_iff_right (by omega),
        and_iff_right (by omega)]
      rfl
    · exact iff_of_true (by omega) trivial
  | write d =>
    rw [busErrorCase_write hsize hmask halign hdir]
    split_ifs <;> exact iff_of_true (by omega) trivial

end WholeWord

/-- The cases of R610, decoded: an access that is no aligned whole word, one to a register, and one above them. -/
theorem busErrorCase_iff (s : State) (x : Txn) : BusErrorCase s x ↔ s.Rejects (decode x) := by
  by_cases hword : x.size = 4 ∧ x.byteEnables = 0b1111#4 ∧ x.addr.toNat % 4 = 0
  · obtain ⟨hsize, hmask, halign⟩ := hword
    obtain ⟨r, hr⟩ | hwin := reg_or_window halign
    · rw [decode_reg hsize hmask hr, busErrorCase_reg hsize hmask halign hr]
    · rw [decode_window hsize hmask halign hwin, busErrorCase_window hsize hmask halign hwin]
  · obtain ⟨c, hc⟩ := decode_not_word (x := x) (by tauto)
    rw [hc]
    exact iff_of_true (.inl (by tauto)) trivial

/-- Settles O10: the cases of R610 are the transactions that are rejected. -/
theorem busErrorsAreExactlyTheListedCases : Obligations.BusErrorsAreExactlyTheListedCases := by
  intro s x rest hport
  rw [busErrorCase_iff]
  exact ⟨step_rejected hport, step_accepted hport⟩

end Sys2Proof.Machine
end

section
/-! PROOFS. Reset: the state it leaves, and that nothing else deconfigures the BFE (R700 to R702); and what holds the
probe buffer, the hashes and RESULT between the commands that write them (R712, R713). -/

namespace Sys2Proof.Machine

variable {s t : State} {i : Instr}

/-! ## Reset -/

@[simp] theorem takeReset_configured (s : State) : (takeReset s).configured = false := rfl

/-- After reset every field of STATUS is 0 (R117, R126). -/
@[simp] theorem takeReset_statusWord (s : State) : (takeReset s).statusWord = 0 := by
  simp [State.statusWord, takeReset, State.resetOf, bit, LocWidth.bytes, ErrCode.code]

/-- Settles O15: a step that performs a reset is `takeReset` after taking the event, whatever the event abandons. -/
theorem resetEventGivesTheResetState : Obligations.ResetEventGivesTheResetState := by
  intro s a rest hp
  exact ⟨takeReset { s with port := rest }, s.epoch + 1, step_reset hp, rfl, takeReset_configured _, rfl, rfl, rfl, rfl,
    takeReset_statusWord _, rfl, rfl, rfl, rfl, step_reset rfl⟩

/-! ## CONFIGURED -/

theorem KeepsFilter.configured_eq (h : KeepsFilter s t) : t.configured = s.configured := by rw [h]

/-- CONFIG configures, and every other instruction keeps CONFIGURED. -/
theorem exec_keeps_configured (hc : s.configured = true) (h : exec i s = .next t) : t.configured = true := by
  obtain hk | ⟨-, -, hk⟩ | ⟨-, -, hk⟩ | ⟨-, -, hk⟩ := exec_filter_cases h
  · exact hk.configured_eq.trans hc
  · exact hk.configured_eq
  · simpa [hc] using hk.configured_eq
  · exact hk.configured_eq.trans hc

theorem step_keeps_configured (hc : s.configured = true) (hreset : ∀ a rest, s.port ≠ .reset a :: rest)
    (h : step s = .next t) : t.configured = true := by
  obtain hk | ⟨a, rest, hp, -⟩ | ⟨x, rest, i, -, -, hx⟩ := step_filter_cases h
  · exact hk.configured_eq.trans hc
  · exact absurd hp (hreset a rest)
  · exact exec_keeps_configured (s := { s with port := rest }) hc hx

/-- Settles O16: no step but a reset clears CONFIGURED, and a reset does. -/
theorem onlyResetDeconfigures : Obligations.OnlyResetDeconfigures :=
  ⟨fun _ _ => step_keeps_configured, fun _ _ _ hp => ⟨_, step_reset hp, takeReset_configured _⟩⟩

/-! ## The probe buffer, the hashes and RESULT -/

/-- `t` holds what the last probe of `s` left: the probe buffer, the hashes and LOCVALID (R712). -/
def HoldsProbe (s t : State) : Prop :=
  t.loc = s.loc ∧ t.hashA = s.hashA ∧ t.hashB = s.hashB ∧ t.locValid = s.locValid

theorem KeepsFilter.holdsProbe (h : KeepsFilter s t) : HoldsProbe s t := by
  rw [h]
  exact ⟨rfl, rfl, rfl, rfl⟩

theorem KeepsFilter.result_eq (h : KeepsFilter s t) : t.result = s.result := by rw [h]

/-- Of the instructions other than a successful CONFIG, only a successful ADD or TEST probes, and only a successful TEST
writes RESULT. -/
theorem exec_holds_probe_result (h : exec i s = .next t) (hi : ¬ (i = .config ∧ ¬ s.configInvalid)) :
    ((i = .add ∨ i = .test → s.configured = false) → HoldsProbe s t) ∧
    ((i = .test → s.configured = false) → t.result = s.result) := by
  obtain hk | ⟨hconfig, hv, -⟩ | ⟨hadd, hc, hk⟩ | ⟨htest, hc, -⟩ := exec_filter_cases h
  · exact ⟨fun _ => hk.holdsProbe, fun _ => hk.result_eq⟩
  · exact absurd ⟨hconfig, hv⟩ hi
  · exact ⟨fun hu => absurd (hu (.inl hadd)) (by simp [hc]), fun _ => by simpa using hk.result_eq⟩
  · exact ⟨fun hu => absurd (hu (.inr htest)) (by simp [hc]), fun hu => absurd (hu htest) (by simp [hc])⟩

/-- Settles O42, from what an instruction within the life of a filter holds: every other step keeps the whole filter. -/
theorem probeAndResultAreHeld : Obligations.ProbeAndResultAreHeld := by
  intro s t hlife h
  obtain hk | ⟨a, rest, hp, -⟩ | ⟨x, rest, i, hp, hd, hx⟩ := step_filter_cases h
  · exact ⟨fun _ => hk.holdsProbe, fun _ => hk.result_eq⟩
  · exact absurd (by simp [State.endsFilter, hp]) hlife
  · have hi : ¬ (i = .config ∧ ¬ s.configInvalid) := fun ⟨hconfig, hv⟩ =>
      hlife (by simpa [State.endsFilter, hp, hd, hconfig] using hv)
    obtain ⟨hprobe, hresult⟩ := exec_holds_probe_result hx hi
    exact ⟨fun hu => hprobe fun hprobes => hu x rest hp (by simpa [hd] using hprobes),
      fun hu => hresult fun htest => hu x rest hp (htest ▸ hd)⟩

end Sys2Proof.Machine
end
